-- ==== Sys2Proof/Word.lean ====
section
/-! DEFINITION. The words of the n64tex CORE whose width is fixed (00_scope.md R4; 10_state.md R20). The
dimensions and the counters, whose widths depend on `DIM_BITS`, are unbounded naturals (R6; log entry
8); Safety.lean says what it is for them to fit a `DIM_BITS`. -/

namespace Sys2Proof

/-- One byte: a channel of a sample, a byte of the stream, the accumulator. -/
abbrev Byte := BitVec 8

/-- A sample on the `SRC` port as one word (R56). -/
abbrev SampleWord := BitVec 32

/-- A bit-group: the encoder's 16-bit result `BG` (R57). -/
abbrev Group := BitVec 16

/-- An `FMT` code (R52). -/
abbrev FmtCode := BitVec 3

end Sys2Proof
end

