-- ==== Sys2Proof/Syntax.lean ====
section
/-! DEFINITION. The instructions (one constructor per row of spec/opcode_table.json), the formats,
the errors, and the notation for a conversion (30_encoding.md, 60_exceptions.md). -/

namespace Sys2Proof

/-- The rows of the opcode table. None has an operand: each works on the registers of the state. -/
inductive Instr where
  | encRgba5551  -- ENC.RGBA5551, FMT code 0 (R76)
  | encI4        -- ENC.I4, FMT code 1 (R77)
  | encI8        -- ENC.I8, FMT code 2 (R78)
  | encIa4       -- ENC.IA4, FMT code 3 (R79)
  | encIa8       -- ENC.IA8, FMT code 4 (R80)
  | reserved5    -- RESERVED.5 (R54)
  | reserved6    -- RESERVED.6 (R54)
  | reserved7    -- RESERVED.7 (R54)
  | start        -- START, CTRL bit 0 set (R110)
  | ctrlNone     -- CTRL.NONE, CTRL bit 0 clear (R12)
  | intens       -- INTENS (R70)
  | emit16       -- EMIT16 (R95)
  | emit8        -- EMIT8 (R96)
  | emit4        -- EMIT4 (R97)
  | flush4       -- FLUSH4 (R98)
  | next         -- NEXT (R92)
  deriving DecidableEq, Repr

/-- The closed format enumeration: five values and no sixth (R5, R50). -/
inductive Format where
  | rgba5551 | i4 | i8 | ia4 | ia8
  deriving DecidableEq, Repr

/-- The packer behaviour that a format's bit count selects (R50). -/
inductive WidthClass where
  | w16 | w8 | w4
  deriving DecidableEq, Repr

/-- The three errors (R125). -/
inductive ErrorKind where
  | invalidFormat | sourceUnavailable | sinkFailure
  deriving DecidableEq, Repr

/-- The points of a step at which an operation without a code of its own runs (table rows with
format INTERNAL). -/
inductive Slot where
  | intensity | emitter | flush | advance
  deriving DecidableEq, Repr

/-- How a row of the table is selected: by the `FMT` code, by a word written to `CTRL` (its width is
the open `REG_BINDING`, so any natural number), or by the `FMT` code at a point of a step. -/
inductive Encoding where
  | fmt (code : FmtCode)
  | ctrl (word : Nat)
  | internal (slot : Slot) (code : FmtCode)
  deriving DecidableEq, Repr

/-- The `pack` notation for a conversion (R66): a selector token, the dimensions and the sample words,
row 0, column 0 first. -/
structure PackProgram where
  token : String
  width : Nat
  height : Nat
  samples : List SampleWord
  deriving DecidableEq, Repr

end Sys2Proof
end

