-- ==== Sys2Proof/WellFormed.lean ====
section
/-! DEFINITION. Which instructions may run under which `FMT` code (the `encoding` column of the opcode
table), and which `pack` notations are whole. -/

namespace Sys2Proof

/-- `i` may be selected while `FMT` holds `c`: an encoder or reserved row under its own code, a `CTRL`
command under any, an internal operation under the codes the table lists for it. -/
def Instr.wellFormed (c : FmtCode) : Instr → Bool
  | .encRgba5551 => c == 0
  | .encI4 => c == 1
  | .encI8 => c == 2
  | .encIa4 => c == 3
  | .encIa8 => c == 4
  | .reserved5 => c == 5
  | .reserved6 => c == 6
  | .reserved7 => c == 7
  | .start => true
  | .ctrlNone => true
  | .intens => c == 1 || c == 2 || c == 3 || c == 4
  | .emit16 => c == 0
  | .emit8 => c == 2 || c == 4
  | .emit4 => c == 1 || c == 3
  | .flush4 => c.toNat ≤ 4
  | .next => c.toNat ≤ 4

/-- A `pack` notation gives one sample for each location of its rectangle (R66). -/
def PackProgram.wellFormed (p : PackProgram) : Bool :=
  p.samples.length == p.width * p.height

end Sys2Proof
end

