-- ==== Sys2Proof/Decode.lean ====
section
/-! DEFINITION. From an encoding to an instruction and back (30_encoding.md R50 to R54, R65, R68;
spec/opcode_table.json). -/

namespace Sys2Proof

/-- Why an encoding names no instruction: no operation runs at that point of a step under that code. -/
inductive DecodeError where
  | noOperation (slot : Slot) (code : FmtCode)
  deriving DecidableEq, Repr

/-- The format an `FMT` code selects; codes 5, 6 and 7 are reserved (R50, R54). -/
def formatOf (c : FmtCode) : Option Format :=
  match c.toNat with
  | 0 => some .rgba5551
  | 1 => some .i4
  | 2 => some .i8
  | 3 => some .ia4
  | 4 => some .ia8
  | _ => none

/-- The `FMT` code of a format (R50). -/
def Format.code : Format → FmtCode
  | .rgba5551 => 0
  | .i4 => 1
  | .i8 => 2
  | .ia4 => 3
  | .ia8 => 4

/-- Bits per encoded pixel (R50). -/
def Format.bpp : Format → Nat
  | .rgba5551 => 16
  | .i4 => 4
  | .i8 => 8
  | .ia4 => 4
  | .ia8 => 8

/-- The width class (R50). -/
def Format.widthClass : Format → WidthClass
  | .rgba5551 => .w16
  | .i4 => .w4
  | .i8 => .w8
  | .ia4 => .w4
  | .ia8 => .w8

/-- The encoder operation of a format (R50, R75). -/
def Format.encoder : Format → Instr
  | .rgba5551 => .encRgba5551
  | .i4 => .encI4
  | .i8 => .encI8
  | .ia4 => .encIa4
  | .ia8 => .encIa8

/-- Whether a format's encoder uses the intensity (R70). -/
def Format.usesIntensity : Format → Bool
  | .rgba5551 => false
  | .i4 => true
  | .i8 => true
  | .ia4 => true
  | .ia8 => true

/-- The emitter a width class selects (R99). -/
def WidthClass.emitter : WidthClass → Instr
  | .w16 => .emit16
  | .w8 => .emit8
  | .w4 => .emit4

/-- The row an `FMT` code selects; total, with the reserved codes as rows of their own (R54, R68). -/
def decodeFmt (c : FmtCode) : Instr :=
  match formatOf c with
  | some f => f.encoder
  | none => if c.toNat = 5 then .reserved5 else if c.toNat = 6 then .reserved6 else .reserved7

/-- A word written to `CTRL`: bit 0 set is `START`, clear is no command, the rest is ignored (R65). -/
def decodeCtrl (w : Nat) : Instr :=
  if w.testBit 0 then .start else .ctrlNone

/-- The operation that runs at a point of a step under an `FMT` code (the table's INTERNAL rows). -/
def decodeInternal (slot : Slot) (c : FmtCode) : Option Instr :=
  match formatOf c with
  | none => none
  | some f =>
    match slot with
    | .intensity => if f.usesIntensity then some .intens else none
    | .emitter => some f.widthClass.emitter
    | .flush => some .flush4
    | .advance => some .next

/-- Decoding, total, rejecting by name. -/
def decode : Encoding → Except DecodeError Instr
  | .fmt c => .ok (decodeFmt c)
  | .ctrl w => .ok (decodeCtrl w)
  | .internal slot c =>
    match decodeInternal slot c with
    | some i => .ok i
    | none => .error (.noOperation slot c)

/-- The encoding that selects a well-formed instruction while `FMT` holds `c`. -/
def encode (c : FmtCode) : Instr → Encoding
  | .encRgba5551 => .fmt 0b000
  | .encI4 => .fmt 0b001
  | .encI8 => .fmt 0b010
  | .encIa4 => .fmt 0b011
  | .encIa8 => .fmt 0b100
  | .reserved5 => .fmt 0b101
  | .reserved6 => .fmt 0b110
  | .reserved7 => .fmt 0b111
  | .start => .ctrl 1
  | .ctrlNone => .ctrl 0
  | .intens => .internal .intensity c
  | .emit16 => .internal .emitter c
  | .emit8 => .internal .emitter c
  | .emit4 => .internal .emitter c
  | .flush4 => .internal .flush c
  | .next => .internal .advance c

/-- The operations of a `RUN` step that handles a pixel, in order: the encoder the code selects, the
emitter of its class, the iterator's advance (43_sequencer.md R112). Under a reserved code, which
never reaches `RUN` (41_pixel_encoder.md R85), the reserved row stands alone (DESIGN CHOICE, log
entry 14). -/
def pixelOps (c : FmtCode) : List Instr :=
  match decodeInternal .emitter c with
  | some e => [decodeFmt c, e, .next]
  | none => [decodeFmt c]

/-- The five selector tokens, case-sensitive and whole (R51). -/
def Format.token : Format → String
  | .rgba5551 => "rgba5551"
  | .i4 => "i4"
  | .i8 => "i8"
  | .ia4 => "ia4"
  | .ia8 => "ia8"

/-- The glue's translation of a token: the five tokens give codes 0 to 4, every other string 7 (R53). -/
def decodeToken (t : String) : FmtCode :=
  if t = Format.rgba5551.token then Format.rgba5551.code
  else if t = Format.i4.token then Format.i4.code
  else if t = Format.i8.token then Format.i8.code
  else if t = Format.ia4.token then Format.ia4.code
  else if t = Format.ia8.token then Format.ia8.code
  else 7

/-- The instruction of a table word of `nbits` bits. A 1-bit word is a `CTRL` command; a longer one
holds an `FMT` code in its low three bits, the bits above it being ignored (10_state.md R24).
The host gives both kinds in whole bytes, and then a word is read as an `FMT` code (DESIGN CHOICE, log entry 10). -/
def decodeTableWord (nbits w : Nat) : Option Instr :=
  if nbits ≤ 1 then (decode (.ctrl w)).toOption
  else (decode (.fmt (BitVec.ofNat 3 w))).toOption

end Sys2Proof
end

