-- ==== Sys2Proof/Config.lean ====
section
/-! DEFINITION. What an implementation fixes and what the environment leaves free. -/

namespace Sys2Proof.Config

/-- The default of the parameter `DIM_BITS` (00_scope.md R6). No step depends on the parameter: claims
about a given `DIM_BITS` take it as an argument (`FitsWidths`, Safety.lean; log entry 8). -/
def dimBits : Nat := 16

/-- Free value: the answer to the `n`-th unscripted `SrcOpen` (43_sequencer.md R121; DESIGN CHOICE, log entry 5).
`none` is `unavailable`; otherwise width, height and the samples by flat index. -/
opaque freeSource : Nat → Option (Nat × Nat × List (Nat × SampleWord))

/-- Free value: an unscripted answer of `SinkReady` (R121; DESIGN CHOICE, log entry 5). -/
opaque freeReady : Nat → Bool

/-- Free value: an unscripted answer of `SinkWrite`, `true` for `ok` (R121; DESIGN CHOICE, log entry 5). -/
opaque freeWrite : Nat → Bool

/-- Free value: an unscripted answer of `SinkClose`, `true` for `ok` (R121; DESIGN CHOICE, log entry 5). -/
opaque freeClose : Nat → Bool

/-- Free value: whether the byte of a failed `SinkWrite` reached the sink's storage
(60_exceptions.md R132, 93_implementation_defined.md U6; DESIGN CHOICE, log entry 9). -/
opaque freeStored : Nat → Bool

end Sys2Proof.Config
end

