-- ==== Sys2Proof/Machine/State.lean ====
section
/-! DEFINITION. The state of the machine, its value after reset, and the reasons a step can stop
(10_state.md, 43_sequencer.md). -/

namespace Sys2Proof.Machine

/-- `PHASE`, the sequencing state (R14). -/
inductive Phase where
  | idle | check | run | flush | close | done | err
  deriving DecidableEq, Repr

/-- A sample: four 8-bit channels (R4, R19). -/
structure Sample where
  r : Byte
  g : Byte
  b : Byte
  a : Byte
  deriving DecidableEq, Repr

/-- An image as the source holds it: its dimensions and its samples by flat index (R31, R32), in the
canonical form of Machine/Memory.lean. An unlisted location holds the word 0 (DESIGN CHOICE, log entry 3). -/
structure Image where
  width : Nat
  height : Nat
  samples : List (Nat × SampleWord)
  deriving DecidableEq, Repr

/-- A request at the `SRC` or `SNK` port with its answer (R122). -/
inductive Event where
  | srcOpen (answer : Option (Nat × Nat))          -- `none` is `unavailable`
  | srcRead (row col : Nat) (sample : SampleWord)
  | sinkReady (answer : Bool)
  | sinkWrite (byte : Byte) (accepted : Bool)      -- `true` is `ok`
  | sinkClose (accepted : Bool)                    -- `true` is `ok`
  deriving DecidableEq, Repr

/-- What may happen next (43_sequencer.md section 2; 70_reset_and_hazards.md R145, R147). -/
inductive Move where
  | core                          -- the core's own step
  | write (reg word : Nat)        -- the host writes a word to register `reg`
  | read (reg : Nat)              -- the host reads register `reg`
  | reset                         -- reset
  | sink (content : List Byte)    -- the glue presents a sink that holds these bytes
  deriving DecidableEq, Repr

/-- The environment (R25): not state of the core. The lists of answers are read oldest first; a
request for which none is left draws a free value (DESIGN CHOICE, log entry 5). -/
structure Env where
  moves : List Move                   -- what happens next, oldest first; when empty, the core moves
  replies : List (Nat × Nat)          -- host reads answered: register number and value, oldest first
  sources : List (Option Image)       -- what `SrcOpen` will find
  readyAns : List Bool                -- what `SinkReady` will answer
  writeAns : List Bool                -- what `SinkWrite` will answer, `true` for `ok`
  closeAns : List Bool                -- what `SinkClose` will answer, `true` for `ok`
  draws : Nat                         -- the MODEL's own: free values drawn so far (DESIGN CHOICE, log entry 5)
  image : Image                       -- the image `SrcOpen` opened last
  snk : List Host.Cell                -- the sink's storage, canonical (Machine/Memory.lean)
  events : List Event                 -- the history of the present conversion, oldest first (R122)
  deriving DecidableEq, Repr

/-- The state: the core's registers (R10), the wires as last driven (R20), and the environment. The
registers whose width depends on `DIM_BITS` are unbounded naturals, as R6 has it (log entry 8). -/
structure State where
  fmt : FmtCode          -- `FMT` (R11)
  phase : Phase          -- `PHASE` (R14)
  errcode : BitVec 2     -- `ERRCODE` (R13)
  width : Nat            -- `WIDTH` (R15)
  height : Nat           -- `HEIGHT` (R15)
  row : Nat              -- `ROW` (R16)
  col : Nat              -- `COL` (R16)
  idx : Nat              -- `IDX` (R17)
  bcnt : Nat             -- `BCNT` (R18)
  acc : Byte             -- `ACC` (R22)
  pend : Bool            -- `PEND` (R23)
  px : Sample            -- `PX` (R19)
  sum : BitVec 10        -- wire `SUM` (R20)
  int : Byte             -- wire `INT` (R20)
  a1 : BitVec 1          -- wire `A1` (R20)
  bg : Group             -- wire `BG` (R20)
  env : Env
  deriving DecidableEq, Repr

/-- Why the model stops with a fault. The three errors of the hardware are no faults of the model: they
are next states with `PHASE = ERR`. -/
inductive Fault where
  /-- Raised by `SrcRead` outside the image (R39: never issued in a run; U12: the source need not
  define it; log entry 11). Safe: the model stops where the spec says nothing. -/
  | srcReadOutsideImage
  deriving DecidableEq, Repr

/-- Why the model refuses a step. -/
inductive Refusal where
  /-- Would be raised by an arm of `exec` that has no meaning; no arm has none. Safe. -/
  | notModelled (mnemonic : String)
  /-- Raised when the glue presents a sink while the core is busy, a breach of its duty (R150, D30) of
  which the spec says nothing (U14; log entry 12). Safe: no such run is in the model. -/
  | sinkPresentedWhileBusy
  deriving DecidableEq, Repr

/-- The environment right after power-on, as the model names it (DESIGN CHOICE, log entries 3 to 7). -/
def Env.initial : Env where
  moves := []
  replies := []
  sources := []
  readyAns := []
  writeAns := []
  closeAns := []
  draws := 0
  image := { width := 0, height := 0, samples := [] }
  snk := []
  events := []

/-- The machine right after reset (R26, R145). `PX` (DESIGN CHOICE, log entry 1) and the wires (log entry 2) have no
reset value in the spec; the model names 0 (DESIGN CHOICE, unsafe). -/
def State.reset : State where
  fmt := 7
  phase := .idle
  errcode := 0
  width := 0
  height := 0
  row := 0
  col := 0
  idx := 0
  bcnt := 0
  acc := 0
  pend := false
  px := { r := 0, g := 0, b := 0, a := 0 }
  sum := 0
  int := 0
  a1 := 0
  bg := 0
  env := Env.initial

end Sys2Proof.Machine
end

