-- ==== Sys2Proof/Machine/Memory.lean ====
section
/-! DEFINITION. Memory as a list of (address, value) pairs in one canonical form: addresses strictly
rising, and no entry equal to what an unlisted address reads as (`d`; `none` where an unlisted address
holds nothing). The sink's storage has `d = none`, an image has `d = some 0` (DESIGN CHOICE, log entries 3, 4). -/

namespace Sys2Proof.Machine

/-- The value listed at an address. -/
def Mem.read? {n : Nat} (m : List (Nat × BitVec n)) (a : Nat) : Option (BitVec n) :=
  match m with
  | [] => none
  | (b, v) :: t => if a = b then some v else Mem.read? t a

/-- One listed pair, or nothing when it equals what an unlisted address reads as. -/
def Mem.cell {n : Nat} (d : Option (BitVec n)) (a : Nat) (v : BitVec n) : List (Nat × BitVec n) :=
  if d = some v then [] else [(a, v)]

/-- Store a value, keeping the canonical form. -/
def Mem.write {n : Nat} (d : Option (BitVec n)) (m : List (Nat × BitVec n)) (a : Nat) (v : BitVec n) :
    List (Nat × BitVec n) :=
  match m with
  | [] => Mem.cell d a v
  | (b, w) :: t =>
    if a < b then Mem.cell d a v ++ (b, w) :: t
    else if a = b then Mem.cell d a v ++ t
    else (b, w) :: Mem.write d t a v

/-- The first address past all listed ones. -/
def Mem.endAddr {n : Nat} (m : List (Nat × BitVec n)) : Nat :=
  match m with
  | [] => 0
  | (a, _) :: t => max (a + 1) (Mem.endAddr t)

/-- Append one value at the end (20_memory.md R33: the `SNK` space only grows at its end). -/
def Mem.append {n : Nat} (m : List (Nat × BitVec n)) (v : BitVec n) : List (Nat × BitVec n) :=
  m ++ [(Mem.endAddr m, v)]

/-- Addresses are at least `lo` and strictly rising. -/
def Mem.risingFrom {n : Nat} (lo : Nat) (m : List (Nat × BitVec n)) : Bool :=
  match m with
  | [] => true
  | (a, _) :: t => decide (lo ≤ a) && Mem.risingFrom (a + 1) t

/-- The canonical form. -/
def Mem.wf {n : Nat} (d : Option (BitVec n)) (m : List (Nat × BitVec n)) : Bool :=
  Mem.risingFrom 0 m && m.all (fun c => decide (d ≠ some c.2))

/-- A memory from pairs in any order; of two pairs at one address the later one stands. -/
def Mem.ofPairs {n : Nat} (d : Option (BitVec n)) (ps : List (Nat × BitVec n)) : List (Nat × BitVec n) :=
  ps.foldl (fun m p => Mem.write d m p.1 p.2) []

/-- A memory that lists consecutive values from an address on. -/
def Mem.ofValues {n : Nat} (d : Option (BitVec n)) (a : Nat) (vs : List (BitVec n)) :
    List (Nat × BitVec n) :=
  match vs with
  | [] => []
  | v :: t => Mem.cell d a v ++ Mem.ofValues d (a + 1) t

/-- The word at a flat index of an image (R32); an unlisted location holds 0 (DESIGN CHOICE, log entry 3). -/
def Image.at (img : Image) (i : Nat) : SampleWord :=
  (Mem.read? img.samples i).getD 0

/-- The number of locations of an image. -/
def Image.count (img : Image) : Nat :=
  img.width * img.height

/-- An image from its sample words, row 0, column 0 first (R66). -/
def Image.ofWords (w h : Nat) (ws : List SampleWord) : Image where
  width := w
  height := h
  samples := Mem.ofValues (some 0) 0 ws

/-- Both memories of the environment, and the images it still has to present, are canonical. -/
def Env.memWf (e : Env) : Bool :=
  Mem.wf none e.snk && Mem.wf (some 0) e.image.samples &&
    e.sources.all fun o => match o with
      | none => true
      | some img => Mem.wf (some 0) img.samples

end Sys2Proof.Machine
end

