-- ==== Sys2Proof/Machine/Operands.lean ====
section
/-! DEFINITION. The operand forms: the fields of the sample word, the intensity, the fields of a
bit-group, the pixel count, and the bit-group layouts of the five formats (30_encoding.md R56 to R63,
40_intensity.md R70, 41_pixel_encoder.md R76 to R82). -/

namespace Sys2Proof.Machine

/-- The four channels of a sample word (R56). -/
def Sample.ofWord (s : SampleWord) : Sample where
  r := s.extractLsb' 24 8
  g := s.extractLsb' 16 8
  b := s.extractLsb' 8 8
  a := s.extractLsb' 0 8

/-- The word of a sample: R in bits 31:24 down to A in bits 7:0 (R56). -/
def Sample.word (p : Sample) : SampleWord :=
  p.r ++ p.g ++ p.b ++ p.a

/-- The wire `SUM`: the exact 10-bit sum of the three colour channels (R70, R71). -/
def Sample.colourSum (p : Sample) : BitVec 10 :=
  BitVec.ofNat 10 (p.r.toNat + p.g.toNat + p.b.toNat)

/-- The wire `INT`: `SUM div 3` (R70). -/
def intensityOf (sum : BitVec 10) : Byte :=
  BitVec.ofNat 8 (sum.toNat / 3)

/-- The bit-group of `RGBA5551`, by the source's own multiplications (R58, R76). -/
def groupRgba5551 (p : Sample) (a1 : BitVec 1) : Group :=
  BitVec.ofNat 16
    (p.r.toNat / 8 * 0x0800 + p.g.toNat / 8 * 0x0040 + p.b.toNat / 8 * 0x0002 + a1.toNat)

/-- The bit-group of `I4`: `INT div 16` (R59, R77). -/
def groupI4 (int : Byte) : Group :=
  BitVec.ofNat 16 (int.toNat / 16)

/-- The bit-group of `I8`: `INT mod 256` (R60, R78). -/
def groupI8 (int : Byte) : Group :=
  BitVec.ofNat 16 (int.toNat % 256)

/-- The bit-group of `IA4`: `((INT div 32) << 1) | A1` (R61, R79). -/
def groupIa4 (int : Byte) (a1 : BitVec 1) : Group :=
  BitVec.ofNat 16 ((int.toNat / 32) <<< 1 ||| a1.toNat)

/-- The bit-group of `IA8`: `((INT div 16) << 4) | (A div 16)` (R62, R80, R82). -/
def groupIa8 (int : Byte) (a : Byte) : Group :=
  BitVec.ofNat 16 ((int.toNat / 16) <<< 4 ||| a.toNat / 16)

/-- `BG[15:8]`. -/
def groupHigh (g : Group) : Byte := g.extractLsb' 8 8

/-- `BG[7:0]`. -/
def groupLow (g : Group) : Byte := g.extractLsb' 0 8

/-- `BG[3:0]` as the low nibble of a byte. -/
def groupNibble (g : Group) : Byte := (g.extractLsb' 0 4).setWidth 8

/-- The wire `N = WIDTH * HEIGHT` (R20, R93). -/
def State.pixelCount (s : State) : Nat :=
  s.width * s.height

/-- The low three bits of a word written to `FMT` (R24). -/
def fmtField (w : Nat) : FmtCode := BitVec.ofNat 3 w

end Sys2Proof.Machine
end

