-- ==== Sys2Proof/Machine/Flags.lean ====
section
/-! DEFINITION. The one-bit values and status views. There are no arithmetic flags (10_state.md R28):
the flag-like bits are the wire `A1`, the register `PEND`, and the fields of `STATUS`. -/

namespace Sys2Proof.Machine

/-- The wire `A1`: any alpha above 0 counts as opaque (R81). -/
def Sample.alphaBit (p : Sample) : BitVec 1 :=
  if 0 < p.a.toNat then 1 else 0

/-- `PHASE2`, what the host sees of `PHASE` (R13, R14). -/
def Phase.code : Phase → BitVec 2
  | .idle => 0
  | .check => 1
  | .run => 1
  | .flush => 1
  | .close => 1
  | .done => 2
  | .err => 3

/-- The phases in which the core has a step (R24, 43_sequencer.md section 3). -/
def Phase.busy : Phase → Bool
  | .idle => false
  | .check => true
  | .run => true
  | .flush => true
  | .close => true
  | .done => false
  | .err => false

/-- `ERRCODE` of an error (R129). -/
def errorCode : ErrorKind → BitVec 2
  | .invalidFormat => 1
  | .sourceUnavailable => 2
  | .sinkFailure => 3

/-- `STATUS`: `PHASE2` in bits 1:0, `ERRCODE` in bits 3:2 (R13). -/
def State.status (s : State) : BitVec 4 :=
  s.errcode ++ s.phase.code

end Sys2Proof.Machine
end

