-- ==== Sys2Proof/Machine/Ops.lean ====
section
/-! DEFINITION. The named operations over registers, ports and memory: register updates, the five
requests of the `SRC` and `SNK` ports (00_scope.md section 6, 43_sequencer.md R121), `raise`
(60_exceptions.md R131), `put` (42_stream_packer.md R90), and the host's register accesses
(10_state.md R24). -/

namespace Sys2Proof.Machine

/-- How a piece of a step ends: it goes on, or it raised an error and nothing after it in the same
step runs (00_scope.md section 6, `raise E`). -/
inductive Flow where
  | goesOn (s : State)
  | raised (s : State)
  deriving DecidableEq, Repr

/-- Run the next piece unless an error was raised. -/
def Flow.andThen (f : Flow) (k : State → Flow) : Flow :=
  match f with
  | .goesOn s => k s
  | .raised s => .raised s

/-- The state a piece ends in. -/
def Flow.state (f : Flow) : State :=
  match f with
  | .goesOn s => s
  | .raised s => s

/-! Register updates. -/

def State.setFmt (s : State) (c : FmtCode) : State := { s with fmt := c }

def State.setPhase (s : State) (p : Phase) : State := { s with phase := p }

def State.setDims (s : State) (w h : Nat) : State := { s with width := w, height := h }

def State.latchPx (s : State) (p : Sample) : State := { s with px := p }

def State.setIntensity (s : State) (sum : BitVec 10) (int : Byte) : State :=
  { s with sum := sum, int := int }

def State.setA1 (s : State) (b : BitVec 1) : State := { s with a1 := b }

def State.setBg (s : State) (g : Group) : State := { s with bg := g }

/-- Write `ACC` and `PEND`. -/
def State.setHeld (s : State) (acc : Byte) (pend : Bool) : State :=
  { s with acc := acc, pend := pend }

/-- `BCNT <- BCNT + 1` (R90). -/
def State.countByte (s : State) : State := { s with bcnt := s.bcnt + 1 }

def State.setEnv (s : State) (e : Env) : State := { s with env := e }

/-- `raise E`: `ERRCODE` and `PHASE` are written and nothing else (R131). -/
def State.raise (s : State) (e : ErrorKind) : State :=
  { s with errcode := errorCode e, phase := .err }

/-- The iterator's advance, this hardware's `pc <- target` (R92). -/
def State.advance (s : State) : State :=
  if s.col + 1 = s.width then
    { s with idx := s.idx + 1, col := 0, row := s.row + 1 }
  else
    { s with idx := s.idx + 1, col := s.col + 1 }

/-- What an accepted `START` clears (R27, R110); the history of the new conversion begins
(DESIGN CHOICE, log entry 7). -/
def State.beginRun (s : State) : State :=
  { s with
    errcode := 0, row := 0, col := 0, idx := 0, bcnt := 0, acc := 0, pend := false, phase := .check,
    env := { s.env with events := [] } }

/-- Reset: every register at its reset value, the environment untouched but for the model's record of
the abandoned conversion (R145, R146; DESIGN CHOICE, log entry 7). -/
def State.applyReset (s : State) : State :=
  { State.reset with env := { s.env with events := [] } }

/-! The ports. -/

/-- The next answer of a list of answers, or a free value when it has run out (DESIGN CHOICE, log entry 5). -/
def draw (script : List Bool) (free : Nat → Bool) (n : Nat) : Bool × List Bool × Nat :=
  match script with
  | a :: rest => (a, rest, n)
  | [] => (free n, [], n + 1)

/-- A free source as an image in canonical form (DESIGN CHOICE, log entry 5). -/
def freeImage (o : Option (Nat × Nat × List (Nat × SampleWord))) : Option Image :=
  match o with
  | none => none
  | some (w, h, ps) => some { width := w, height := h, samples := Mem.ofPairs (some 0) ps }

/-- The source that the next `SrcOpen` finds. -/
def Env.drawSource (e : Env) : Option Image × Env :=
  match e.sources with
  | o :: rest => (o, { e with sources := rest })
  | [] => (freeImage (Config.freeSource e.draws), { e with draws := e.draws + 1 })

/-- Add a request and its answer to the history (R122). -/
def Env.log (e : Env) (ev : Event) : Env := { e with events := e.events ++ [ev] }

/-- `SrcOpen()` (R121): `none` is `unavailable`, otherwise the dimensions; the image is then open. -/
def State.srcOpen (s : State) : Option (Nat × Nat) × State :=
  match s.env.drawSource with
  | (none, e) => (none, s.setEnv (e.log (.srcOpen none)))
  | (some img, e) =>
    (some (img.width, img.height),
      s.setEnv ({ e with image := img }.log (.srcOpen (some (img.width, img.height)))))

/-- `SrcRead(row, col)`: the sample word at an in-range location (R31, R32); `none` out of range, which
no run asks for (R39). -/
def State.srcRead (s : State) (row col : Nat) : Option (SampleWord × State) :=
  if row < s.env.image.height ∧ col < s.env.image.width then
    let w := s.env.image.at (row * s.env.image.width + col)
    some (w, s.setEnv (s.env.log (.srcRead row col w)))
  else none

/-- `SinkReady()` (R121). -/
def State.sinkReady (s : State) : Bool × State :=
  match draw s.env.readyAns Config.freeReady s.env.draws with
  | (a, rest, n) =>
    (a, s.setEnv ({ s.env with readyAns := rest, draws := n }.log (.sinkReady a)))

/-- `SinkWrite(b)` (R33, R121): an accepted byte stands at the end of the sink's storage; whether a
refused one does is a free value (R132, U6; DESIGN CHOICE, log entry 9). -/
def State.sinkWrite (s : State) (b : Byte) : Bool × State :=
  match draw s.env.writeAns Config.freeWrite s.env.draws with
  | (true, rest, n) =>
    (true, s.setEnv
      ({ s.env with writeAns := rest, draws := n, snk := Mem.append s.env.snk b }.log
        (.sinkWrite b true)))
  | (false, rest, n) =>
    (false, s.setEnv
      ({ s.env with
          writeAns := rest, draws := n + 1,
          snk := if Config.freeStored n then Mem.append s.env.snk b else s.env.snk }.log
        (.sinkWrite b false)))

/-- `SinkClose()` (R121). -/
def State.sinkClose (s : State) : Bool × State :=
  match draw s.env.closeAns Config.freeClose s.env.draws with
  | (a, rest, n) =>
    (a, s.setEnv ({ s.env with closeAns := rest, draws := n }.log (.sinkClose a)))

/-- `put(b)`: one byte to the sink; a failed write raises `SinkFailure`, an accepted one is counted
(R90). -/
def put (b : Byte) (s : State) : Flow :=
  match s.sinkWrite b with
  | (true, s') => .goesOn s'.countByte
  | (false, s') => .raised (s'.raise .sinkFailure)

/-! The host's register accesses (R24). -/

/-- The value of a register by number; `CTRL` and every number above 6 read 0 (R24, R117). -/
def State.readReg (s : State) (reg : Nat) : Nat :=
  match reg with
  | 0 => s.fmt.toNat
  | 1 => 0
  | 2 => s.status.toNat
  | 3 => s.width
  | 4 => s.height
  | 5 => s.bcnt
  | 6 => s.idx
  | _ => 0

/-- A host read: the value goes to the host, nothing else changes (R117). -/
def State.hostRead (s : State) (reg : Nat) : State :=
  s.setEnv { s.env with replies := s.env.replies ++ [(reg, s.readReg reg)] }

/-- A host write to `FMT`: taken only while the core is not busy (R11, R116). -/
def State.writeFmt (s : State) (w : Nat) : State :=
  if s.phase.busy then s else s.setFmt (fmtField w)

/-- The glue presents a sink that holds these bytes (R147). -/
def State.presentSink (s : State) (content : List Byte) : State :=
  s.setEnv { s.env with snk := Mem.ofValues none 0 content }

end Sys2Proof.Machine
end

