-- ==== Sys2Proof/Machine/Command.lean ====
section
/-! DEFINITION. The `CTRL` commands and the reserved `FMT` codes (43_sequencer.md R110, R118;
10_state.md R12; 30_encoding.md R54). -/

namespace Sys2Proof.Machine

/-- `START`: begins a conversion unless the core is busy, when it is ignored (R110, R118). -/
def execStart (s : State) : Host.Outcome State Fault Refusal :=
  if s.phase.busy then .next s else .next s.beginRun

/-- A `CTRL` word whose bit 0 is clear: no command, nothing changes (R12, R65). -/
def execCtrlNone (s : State) : Host.Outcome State Fault Refusal :=
  .next s

/-- Reserved code 5 raises `InvalidFormat` (R54, R126). -/
def execReserved5 (s : State) : Host.Outcome State Fault Refusal :=
  .next (s.raise .invalidFormat)

/-- Reserved code 6 raises `InvalidFormat` (R54, R126). -/
def execReserved6 (s : State) : Host.Outcome State Fault Refusal :=
  .next (s.raise .invalidFormat)

/-- Reserved code 7 raises `InvalidFormat` (R54, R126). -/
def execReserved7 (s : State) : Host.Outcome State Fault Refusal :=
  .next (s.raise .invalidFormat)

end Sys2Proof.Machine
end

