-- ==== Sys2Proof/Machine/Encoder.lean ====
section
/-! DEFINITION. The pixel encoder: `INTENS` and the five format operations (40_intensity.md,
41_pixel_encoder.md). They read only `PX`, drive the wires, and raise nothing (R83, R84). An encoder
drives the wires its rule reads (DEDUCED, log entry 2), so `INTENS` runs inside it. -/

namespace Sys2Proof.Machine

/-- Drive `SUM` and `INT` from `PX` (R70). -/
def State.driveIntensity (s : State) : State :=
  s.setIntensity s.px.colourSum (intensityOf s.px.colourSum)

/-- Drive `A1` from `PX` (R81). -/
def State.driveA1 (s : State) : State :=
  s.setA1 s.px.alphaBit

/-- `INTENS` (R70). -/
def execIntens (s : State) : Host.Outcome State Fault Refusal :=
  .next s.driveIntensity

/-- `ENC.RGBA5551` (R76). -/
def execEncRgba5551 (s : State) : Host.Outcome State Fault Refusal :=
  let s := s.driveA1
  .next (s.setBg (groupRgba5551 s.px s.a1))

/-- `ENC.I4` (R77); `INT` is the wire that `INTENS` drives from the same `PX`. -/
def execEncI4 (s : State) : Host.Outcome State Fault Refusal :=
  let s := s.driveIntensity
  .next (s.setBg (groupI4 s.int))

/-- `ENC.I8` (R78). -/
def execEncI8 (s : State) : Host.Outcome State Fault Refusal :=
  let s := s.driveIntensity
  .next (s.setBg (groupI8 s.int))

/-- `ENC.IA4` (R79). -/
def execEncIa4 (s : State) : Host.Outcome State Fault Refusal :=
  let s := s.driveIntensity.driveA1
  .next (s.setBg (groupIa4 s.int s.a1))

/-- `ENC.IA8` (R80). -/
def execEncIa8 (s : State) : Host.Outcome State Fault Refusal :=
  let s := s.driveIntensity
  .next (s.setBg (groupIa8 s.int s.px.a))

end Sys2Proof.Machine
end

