-- ==== Sys2Proof/Machine/Packer.lean ====
section
/-! DEFINITION. The stream packer: the emitters, the flush and the iterator's advance
(42_stream_packer.md). An error they raise is a next state with `PHASE = ERR` (60_exceptions.md R131). -/

namespace Sys2Proof.Machine

/-- `EMIT16`: high byte first; the second write is not attempted after a failed first one (R95). -/
def execEmit16 (s : State) : Host.Outcome State Fault Refusal :=
  .next ((put (groupHigh s.bg) s).andThen (put (groupLow s.bg))).state

/-- `EMIT8` (R96). -/
def execEmit8 (s : State) : Host.Outcome State Fault Refusal :=
  .next (put (groupLow s.bg) s).state

/-- `EMIT4`: hold the first nibble of a pair, complete the byte with the second (R97). -/
def execEmit4 (s : State) : Host.Outcome State Fault Refusal :=
  if s.pend then
    .next ((put (s.acc ||| groupNibble s.bg) s).andThen (fun t => .goesOn (t.setHeld 0 false))).state
  else
    .next (s.setHeld (groupNibble s.bg <<< 4) true)

/-- `FLUSH4`: write out a nibble left waiting (R98). -/
def execFlush4 (s : State) : Host.Outcome State Fault Refusal :=
  if s.pend then
    .next ((put s.acc s).andThen (fun t => .goesOn (t.setHeld 0 false))).state
  else
    .next s

/-- `NEXT` (R92). -/
def execNext (s : State) : Host.Outcome State Fault Refusal :=
  .next s.advance

end Sys2Proof.Machine
end

