-- ==== Sys2Proof/Machine/Dispatch.lean ====
section
/-! DEFINITION. The dispatch: one arm per instruction. -/

namespace Sys2Proof.Machine

def exec (i : Instr) (s : State) : Host.Outcome State Fault Refusal :=
  match i with
  | .encRgba5551 => Sys2Proof.Machine.execEncRgba5551 s
  | .encI4 => Sys2Proof.Machine.execEncI4 s
  | .encI8 => Sys2Proof.Machine.execEncI8 s
  | .encIa4 => Sys2Proof.Machine.execEncIa4 s
  | .encIa8 => Sys2Proof.Machine.execEncIa8 s
  | .reserved5 => Sys2Proof.Machine.execReserved5 s
  | .reserved6 => Sys2Proof.Machine.execReserved6 s
  | .reserved7 => Sys2Proof.Machine.execReserved7 s
  | .start => Sys2Proof.Machine.execStart s
  | .ctrlNone => Sys2Proof.Machine.execCtrlNone s
  | .intens => Sys2Proof.Machine.execIntens s
  | .emit16 => Sys2Proof.Machine.execEmit16 s
  | .emit8 => Sys2Proof.Machine.execEmit8 s
  | .emit4 => Sys2Proof.Machine.execEmit4 s
  | .flush4 => Sys2Proof.Machine.execFlush4 s
  | .next => Sys2Proof.Machine.execNext s

end Sys2Proof.Machine
end

