-- ==== Sys2Proof/Machine/Sequencer.lean ====
section
/-! DEFINITION. The steps of the core and the moves of the host, built from the instructions
(43_sequencer.md). -/

namespace Sys2Proof.Machine

/-- Go on in the same step unless an error was raised: `raise` leaves `PHASE = ERR` (R131). -/
def unlessRaised (o : Host.Outcome State Fault Refusal)
    (k : State → Host.Outcome State Fault Refusal) : Host.Outcome State Fault Refusal :=
  match o with
  | .next s => if s.phase = .err then .next s else k s
  | .fault r => .fault r
  | .refused r => .refused r

/-- Run operations one after the other within one step, stopping at a raised error. -/
def runOps (ops : List Instr) (s : State) : Host.Outcome State Fault Refusal :=
  match ops with
  | [] => .next s
  | i :: rest => unlessRaised (exec i s) (runOps rest)

/-- What follows the format test in the `CHECK` step: the source, then the sink (R111). -/
def openPorts (s : State) : State :=
  match s.srcOpen with
  | (none, t) => t.raise .sourceUnavailable
  | (some (w, h), t) =>
    match (t.setDims w h).sinkReady with
    | (false, u) => u.raise .sinkFailure
    | (true, u) => u.setPhase .run

/-- The `CHECK` step: a reserved code runs its own row, before any request (R111, R54). -/
def checkStep (s : State) : Host.Outcome State Fault Refusal :=
  match formatOf s.fmt with
  | none => exec (decodeFmt s.fmt) s
  | some _ => .next (openPorts s)

/-- The `RUN` step: one pixel, or none is left (R112). -/
def runStep (s : State) : Host.Outcome State Fault Refusal :=
  if s.idx = s.pixelCount then .next (s.setPhase .flush)
  else
    match s.srcRead s.row s.col with
    | none => .fault .srcReadOutsideImage
    | some (w, t) => runOps (pixelOps s.fmt) (t.latchPx (Sample.ofWord w))

/-- The `FLUSH` step (R113). -/
def flushStep (s : State) : Host.Outcome State Fault Refusal :=
  unlessRaised (exec .flush4 s) (fun t => .next (t.setPhase .close))

/-- The `CLOSE` step (R114). -/
def closeStep (s : State) : Host.Outcome State Fault Refusal :=
  match s.sinkClose with
  | (false, t) => .next (t.raise .sinkFailure)
  | (true, t) => .next (t.setPhase .done)

/-- The core's own step, at the spec's granularity (R119; DESIGN CHOICE, log entry 13); at rest it
changes nothing (R115, 43_sequencer.md section 3). -/
def coreStep (s : State) : Host.Outcome State Fault Refusal :=
  match s.phase with
  | .idle => .next s
  | .check => checkStep s
  | .run => runStep s
  | .flush => flushStep s
  | .close => closeStep s
  | .done => .next s
  | .err => .next s

/-- A host write by register number: `FMT` and `CTRL` take it, every other register and every number
above 6 ignores it (R24). -/
def hostWrite (reg word : Nat) (s : State) : Host.Outcome State Fault Refusal :=
  match reg with
  | 0 => .next (s.writeFmt word)
  | 1 => exec (decodeCtrl word) s
  | _ => .next s

/-- One move. -/
def moveStep (m : Move) (s : State) : Host.Outcome State Fault Refusal :=
  match m with
  | .core => coreStep s
  | .write reg word => hostWrite reg word s
  | .read reg => .next (s.hostRead reg)
  | .reset => .next s.applyReset
  | .sink content =>
    if s.phase.busy then .refused .sinkPresentedWhileBusy else .next (s.presentSink content)

/-- Take the next move from the environment; with none there, the core moves (DESIGN CHOICE, log entry 6). -/
def machineStep (s : State) : Host.Outcome State Fault Refusal :=
  match s.env.moves with
  | [] => coreStep s
  | m :: rest => moveStep m (s.setEnv { s.env with moves := rest })

/-- Make the next step run the instruction an `FMT` code selects: a format's row runs in a `RUN` step
with a pixel left and a sink that accepts its bytes, a reserved row in a `CHECK` step. -/
def State.atFmtCode (s : State) (c : FmtCode) : State :=
  match formatOf c with
  | some _ =>
    { s with
      fmt := c, phase := .run, width := 1, height := 1, row := 0, col := 0, idx := 0,
      env := { s.env with
        moves := [], writeAns := [true, true], image := { s.env.image with width := 1, height := 1 } } }
  | none => { s with fmt := c, phase := .check, env := { s.env with moves := [] } }

/-- Make the next step run the command of a word written to `CTRL`. -/
def State.atCtrlWord (s : State) (w : Nat) : State :=
  s.setEnv { s.env with moves := [.write 1 w] }

end Sys2Proof.Machine
end

