-- ==== Sys2Proof/Machine/Glue.lean ====
section
/-! DEFINITION. The glue in front of the core: the token translation as host moves, and a `pack`
notation presented to the machine (30_encoding.md R53, R66; 70_reset_and_hazards.md R147). -/

namespace Sys2Proof.Machine

/-- The glue's two register writes for a token: `FMT`, then `START` (R53). -/
def tokenMoves (t : String) : List Move :=
  [.write 0 (decodeToken t).toNat, .write 1 1]

/-- A `pack` notation queued behind what is already to come: its image for `SrcOpen`, an emptied sink,
the token's register writes (R66, R147). R147 leaves it to the glue whether the token is checked before
the destination is made; this one does not check it, so an invalid token too empties the sink, and its
image stays for the next `SrcOpen` (DESIGN CHOICE, log entry 18). -/
def State.queueProgram (s : State) (p : PackProgram) : State :=
  s.setEnv
    { s.env with
      sources := s.env.sources ++ [some (Image.ofWords p.width p.height p.samples)],
      moves := s.env.moves ++ .sink [] :: tokenMoves p.token }

end Sys2Proof.Machine
end

