-- ==== Sys2Proof/Machine/Step.lean ====
section
/-! DEFINITION. One step of the machine, and where it fetches its next instruction. -/

namespace Sys2Proof.Machine

/-- One step: the next move of the environment, or the core's own step. -/
def step (s : State) : Host.Outcome State Fault Refusal :=
  machineStep s

/-- The state whose next step runs the instruction of a table word (DESIGN CHOICE, log entry 10). -/
def State.withFetchWord (s : State) (nbits w : Nat) : State :=
  if nbits ≤ 1 then s.atCtrlWord w else s.atFmtCode (fmtField w)

end Sys2Proof.Machine
end

