-- ==== Sys2Proof/Machine/Pack.lean ====
section
/-! DEFINITION. The conversion as a function: `enc`, `pack`, the closed form of the stream, its length,
and the event history of a conversion (41_pixel_encoder.md R75, 42_stream_packer.md R100, R101,
20_memory.md R43, R44, 43_sequencer.md R122). The step machine does not call them. -/

namespace Sys2Proof.Machine

/-- `enc(format, pixel)` (R75). -/
def enc (f : Format) (p : Sample) : Group :=
  match f with
  | .rgba5551 => groupRgba5551 p p.alphaBit
  | .i4 => groupI4 (intensityOf p.colourSum)
  | .i8 => groupI8 (intensityOf p.colourSum)
  | .ia4 => groupIa4 (intensityOf p.colourSum) p.alphaBit
  | .ia8 => groupIa8 (intensityOf p.colourSum) p.a

/-- The packer's value between pixels: the bytes so far, the held nibble, whether one is held. -/
structure Packing where
  out : List Byte
  acc : Byte
  pend : Bool
  deriving DecidableEq, Repr

/-- Nothing packed yet. -/
def Packing.empty : Packing where
  out := []
  acc := 0
  pend := false

/-- One pixel of the loop of R100. -/
def Packing.add (f : Format) (k : Packing) (p : Sample) : Packing :=
  let g := enc f p
  match f.widthClass with
  | .w16 => { k with out := k.out ++ [groupHigh g, groupLow g] }
  | .w8 => { k with out := k.out ++ [groupLow g] }
  | .w4 =>
    if k.pend then { out := k.out ++ [k.acc ||| groupNibble g], acc := 0, pend := false }
    else { k with acc := groupNibble g <<< 4, pend := true }

/-- The loop of R100 over a list of pixels. -/
def packing (f : Format) (ps : List Sample) : Packing :=
  ps.foldl (Packing.add f) Packing.empty

/-- `pack(format, pixels)` (R100). -/
def pack (f : Format) (ps : List Sample) : List Byte :=
  let k := packing f ps
  if k.pend then k.out ++ [k.acc] else k.out

/-- The length of a completed stream, `ceil(N * bpp / 8)` (R44, R101). -/
def streamLength (f : Format) (n : Nat) : Nat :=
  (n * f.bpp + 7) / 8

/-- The bit-group of the pixel at flat index `i`; 0 where there is none. -/
def groupAt (f : Format) (ps : List Sample) (i : Nat) : Group :=
  match ps[i]? with
  | some p => enc f p
  | none => 0

/-- The byte at stream offset `k` of a completed conversion (R43). -/
def streamByte (f : Format) (ps : List Sample) (k : Nat) : Byte :=
  match f.widthClass with
  | .w16 =>
    if k % 2 = 0 then groupHigh (groupAt f ps (k / 2)) else groupLow (groupAt f ps (k / 2))
  | .w8 => groupLow (groupAt f ps k)
  | .w4 =>
    groupNibble (groupAt f ps (2 * k)) <<< 4 |||
      (if 2 * k + 1 < ps.length then groupNibble (groupAt f ps (2 * k + 1)) else 0)

/-- The samples of an image in row-major order (R32). -/
def Image.pixels (img : Image) : List Sample :=
  (List.range img.count).map fun i => Sample.ofWord (img.at i)

/-- The events of the pixel at flat index `i` when the writes it completes are accepted (R122). -/
def pixelEvents (f : Format) (img : Image) (i : Nat) : List Event :=
  let w := img.width
  let g := groupAt f img.pixels i
  .srcRead (i / w) (i % w) (img.at i) ::
    match f.widthClass with
    | .w16 => [.sinkWrite (groupHigh g) true, .sinkWrite (groupLow g) true]
    | .w8 => [.sinkWrite (groupLow g) true]
    | .w4 =>
      if i % 2 = 0 then []
      else [.sinkWrite (groupNibble (groupAt f img.pixels (i - 1)) <<< 4 ||| groupNibble g) true]

/-- The history up to and with the first `n` pixels, all answers favourable (R122). -/
def historyUpTo (f : Format) (img : Image) (n : Nat) : List Event :=
  .srcOpen (some (img.width, img.height)) :: .sinkReady true ::
    (List.range n).flatMap (pixelEvents f img)

/-- The write of a nibble left over at the end, if there is one (R122). -/
def flushEvents (f : Format) (img : Image) : List Event :=
  let k := packing f img.pixels
  if k.pend then [.sinkWrite k.acc true] else []

/-- The history of a conversion in which every answer is favourable (R122). -/
def fullHistory (f : Format) (img : Image) : List Event :=
  historyUpTo f img img.count ++ flushEvents f img ++ [.sinkClose true]

/-- The byte of an event that the sink accepted. -/
def Event.acceptedByte (e : Event) : Option Byte :=
  match e with
  | .sinkWrite b true => some b
  | _ => none

/-- The bytes the sink has accepted in the present conversion, in order. -/
def State.written (s : State) : List Byte :=
  s.env.events.filterMap Event.acceptedByte

end Sys2Proof.Machine
end

