-- ==== Sys2Proof/Safety.lean ====
section
/-! DEFINITION. What claims about a run are stated in: the environment's duty, and the invariants of the
core's registers, of the memories and of the event history (10_state.md R13, 42_stream_packer.md R94,
R100, R104, 43_sequencer.md R120, R122, 60_exceptions.md R130, R132). -/

namespace Sys2Proof.Machine

/-- The glue's duty not to present a sink during a conversion (R150): the move to come is not one. -/
def State.dutyKept (s : State) : Bool :=
  match s.env.moves with
  | .sink _ :: _ => !s.phase.busy
  | _ => true

/-- Every register whose width depends on `DIM_BITS` fits its width (R6): what the model's unbounded
naturals are on a hardware with that `DIM_BITS` (log entry 8). -/
structure FitsWidths (s : State) (dimBits : Nat := Config.dimBits) : Prop where
  width_lt : s.width < 2 ^ dimBits
  height_lt : s.height < 2 ^ dimBits
  row_lt : s.row < 2 ^ dimBits
  col_lt : s.col < 2 ^ dimBits
  idx_lt : s.idx < 2 ^ (2 * dimBits)
  bcnt_lt : s.bcnt < 2 ^ (2 * dimBits + 1)

/-- The iterator invariant (R94) with `WIDTH` and `HEIGHT` those of the open image (R15), and the flat
index not past the pixel count (R21). -/
structure IteratorInv (s : State) : Prop where
  width_eq : s.width = s.env.image.width
  height_eq : s.height = s.env.image.height
  flat : s.idx = s.row * s.width + s.col
  col_lt : 0 < s.width → s.col < s.width
  row_le : s.row ≤ s.height
  idx_le : s.idx ≤ s.env.image.count

/-- The packer's registers and the accepted bytes are what packing the first `IDX` pixels gives
(R100, R104). -/
structure PackerInv (f : Format) (s : State) : Prop where
  out_eq : s.written = (packing f (s.env.image.pixels.take s.idx)).out
  acc_eq : s.acc = (packing f (s.env.image.pixels.take s.idx)).acc
  pend_eq : s.pend = (packing f (s.env.image.pixels.take s.idx)).pend

/-- The invariant of a conversion, phase by phase. The format of a conversion that is over is no longer
in `FMT` once the host writes it, hence `∃ f` there; that it is the format in `FMT` when the conversion
ends is said of the step that ends it. -/
structure ConvInv (s : State) : Prop where
  /-- `BCNT` counts the bytes the sink has accepted (R18). -/
  count : s.bcnt = s.written.length
  /-- `ERRCODE` is non-zero exactly when `PHASE = ERR` (R13). -/
  status : s.errcode ≠ 0 ↔ s.phase = .err
  /-- What `START` establishes (R27, R110). -/
  fresh : s.phase = .check →
    s.row = 0 ∧ s.col = 0 ∧ s.idx = 0 ∧ s.acc = 0 ∧ s.pend = false ∧ s.written = []
  /-- While pixels are handled (R94, R104). -/
  running : s.phase = .run → IteratorInv s ∧ ∃ f, formatOf s.fmt = some f ∧ PackerInv f s
  /-- All pixels handled (R93). -/
  flushing : s.phase = .flush →
    IteratorInv s ∧ s.idx = s.env.image.count ∧ ∃ f, formatOf s.fmt = some f ∧ PackerInv f s
  /-- The stream is whole (R98, R100). -/
  closing : s.phase = .close →
    IteratorInv s ∧ s.idx = s.env.image.count ∧ s.acc = 0 ∧ s.pend = false ∧
      ∃ f, formatOf s.fmt = some f ∧ s.written = pack f s.env.image.pixels
  /-- What `DONE` means (R120). -/
  completed : s.phase = .done →
    IteratorInv s ∧ s.idx = s.env.image.count ∧ s.acc = 0 ∧ s.pend = false ∧
      ∃ f, s.written = pack f s.env.image.pixels
  /-- What `ERR` leaves: a first part of a stream, and none of it unless the sink failed (R120, R132). -/
  aborted : s.phase = .err →
    (s.errcode = errorCode .sinkFailure ∨ s.written = []) ∧
      ∃ f, s.written <+: pack f s.env.image.pixels

/-- An answer that makes the core raise `SinkFailure` (R128). -/
def Event.sinkFailed (e : Event) : Bool :=
  match e with
  | .sinkReady a => !a
  | .sinkWrite _ a => !a
  | .sinkClose a => !a
  | .srcOpen _ => false
  | .srcRead _ _ _ => false

/-- The same request answered favourably by the sink. -/
def Event.accepted (e : Event) : Event :=
  match e with
  | .sinkReady _ => .sinkReady true
  | .sinkWrite b _ => .sinkWrite b true
  | .sinkClose _ => .sinkClose true
  | .srcOpen a => .srcOpen a
  | .srcRead r c w => .srcRead r c w

/-- The history of an aborted conversion: no request for an invalid format, one for an unavailable
source, and otherwise a first part of the favourable history whose last request failed (R130, R132). -/
def State.abortedHistory (s : State) : Prop :=
  (s.errcode = errorCode .invalidFormat ∧ s.env.events = []) ∨
  (s.errcode = errorCode .sourceUnavailable ∧ s.env.events = [.srcOpen none]) ∨
  (s.errcode = errorCode .sinkFailure ∧ ∃ f h e, s.env.events = h ++ [e] ∧ e.sinkFailed = true ∧
    h ++ [e.accepted] <+: fullHistory f s.env.image)

/-- The requests made so far in the conversion, in order (R122, R45). -/
structure HistoryInv (s : State) : Prop where
  before : s.phase = .idle ∨ s.phase = .check → s.env.events = []
  running : s.phase = .run → ∃ f, formatOf s.fmt = some f ∧
    s.env.events = historyUpTo f s.env.image s.idx
  flushing : s.phase = .flush → ∃ f, formatOf s.fmt = some f ∧
    s.env.events = historyUpTo f s.env.image s.env.image.count
  closing : s.phase = .close → ∃ f, formatOf s.fmt = some f ∧
    s.env.events = historyUpTo f s.env.image s.env.image.count ++ flushEvents f s.env.image
  completed : s.phase = .done → ∃ f, s.env.events = fullHistory f s.env.image
  aborted : s.phase = .err → s.abortedHistory

/-- The sink's storage ends with the bytes accepted in this conversion, in order (R33, R45). -/
def State.storesStream (s : State) : Prop :=
  s.written <:+ s.env.snk.map Prod.snd

/-- The state with other values in the latch `PX` and on the wires. -/
def State.withScratch (s : State) (px : Sample) (sum : BitVec 10) (int : Byte) (a1 : BitVec 1)
    (bg : Group) : State :=
  { s with px := px, sum := sum, int := int, a1 := a1, bg := bg }

/-- The state with the latch `PX` and the wires blanked: what remains is what may carry from one step to
the next (R19, R20). -/
def State.visible (s : State) : State :=
  s.withScratch State.reset.px 0 0 0 0

/-- An outcome with the latch and the wires of its state blanked. -/
def visibleOutcome (o : Host.Outcome State Fault Refusal) : Host.Outcome State Fault Refusal :=
  match o with
  | .next s => .next s.visible
  | .fault r => .fault r
  | .refused r => .refused r

end Sys2Proof.Machine
end

