-- ==== Sys2Proof/Certificates/Slice0/Obligations.lean ====
section
/-! DEFINITION. Statements for the provers, from the numbered rules of spec/. "The model's record" in a
docstring is `State.env.events`, the requests and answers of the present conversion (R122; log entry 7);
`State.env.snk` is the sink's storage, in which the next byte stands at `Mem.endAddr` (R33); the lists
of answers in `State.env` are the environment's answers of R121 as data (log entry 5). -/

open Sys2Proof Sys2Proof.Machine

/-! ### Encodings -/

/-- Words written out from the tables of R50, R54 and R65 and from the INTERNAL rows of the opcode table
decode to their instructions. -/
def Obligations.WrittenOutWordsDecode : Prop :=
  decode (.fmt 0b000) = .ok .encRgba5551 ∧ decode (.fmt 0b001) = .ok .encI4 ∧
  decode (.fmt 0b010) = .ok .encI8 ∧ decode (.fmt 0b011) = .ok .encIa4 ∧
  decode (.fmt 0b100) = .ok .encIa8 ∧ decode (.fmt 0b101) = .ok .reserved5 ∧
  decode (.fmt 0b110) = .ok .reserved6 ∧ decode (.fmt 0b111) = .ok .reserved7 ∧
  decode (.ctrl 0b1) = .ok .start ∧ decode (.ctrl 0b0) = .ok .ctrlNone ∧
  decode (.internal .intensity 0b011) = .ok .intens ∧ decode (.internal .emitter 0b000) = .ok .emit16 ∧
  decode (.internal .emitter 0b100) = .ok .emit8 ∧ decode (.internal .emitter 0b001) = .ok .emit4 ∧
  decode (.internal .flush 0b001) = .ok .flush4 ∧ decode (.internal .advance 0b010) = .ok .next

/-- R53, R54, R65 and the INTERNAL rows: an instruction that may run under a code is what its encoding
decodes to, and what decodes is encoded so; a point of a step has no operation exactly when the table
lists none there. -/
def Obligations.DecodeAndEncodeAgree : Prop :=
  (∀ (c : FmtCode) (i : Instr), i.wellFormed c = true → decode (encode c i) = .ok i) ∧
  (∀ (c : FmtCode) (i : Instr), decode (.fmt c) = .ok i → i.wellFormed c = true ∧ encode c i = .fmt c) ∧
  (∀ (w : Nat) (c : FmtCode) (i : Instr), decode (.ctrl w) = .ok i →
    i.wellFormed c = true ∧ encode c i = .ctrl (w % 2)) ∧
  (∀ (k : Slot) (c : FmtCode) (i : Instr), decode (.internal k c) = .ok i →
    i.wellFormed c = true ∧ encode c i = .internal k c) ∧
  ∀ (k : Slot) (c : FmtCode), decode (.internal k c) = .error (.noOperation k c) ↔
    5 ≤ c.toNat ∨ (k = .intensity ∧ c = 0)

/-- R65, R12: of a word written to `CTRL` only bit 0 counts; set is `START`, clear changes nothing. -/
def Obligations.CtrlWriteActsOnBitZero : Prop :=
  ∀ (w : Nat) (s : State),
    (w % 2 = 1 → moveStep (.write 1 w) s = exec .start s) ∧
    (w % 2 = 0 → moveStep (.write 1 w) s = .next s)

/-- R53: the five tokens give the codes 0 to 4, every other string 7; the glue writes `FMT`, then
`START`; so from rest an invalid string ends in `InvalidFormat` with no request made. -/
def Obligations.TokensGiveTheirCodes : Prop :=
  decodeToken "rgba5551" = 0 ∧ decodeToken "i4" = 1 ∧ decodeToken "i8" = 2 ∧ decodeToken "ia4" = 3 ∧
  decodeToken "ia8" = 4 ∧
  (∀ t : String, t ∉ ["rgba5551", "i4", "i8", "ia4", "ia8"] → decodeToken t = 7) ∧
  (∀ t : String, tokenMoves t = [.write 0 (decodeToken t).toNat, .write 1 1]) ∧
  ∀ (t : String) (s : State), t ∉ ["rgba5551", "i4", "i8", "ia4", "ia8"] → s.phase.busy = false →
    s.env.moves = tokenMoves t →
    ∃ u, Host.Core.run Sys2Proof.core 3 s = .next u ∧ u.phase = .err ∧ u.errcode = 1 ∧ u.fmt = 7 ∧
      u.env.events = [] ∧ u.env.snk = s.env.snk ∧ u.env.image = s.env.image

/-- R50, R54, R68: the format table row by row: the code, the token, the bits per pixel, the class, the
encoder and the emitter of each format; the codes 5, 6 and 7, and no other, name no format; the operations
of a pixel follow from the format. -/
def Obligations.FormatTableIsClosed : Prop :=
  (∀ c : FmtCode,
    (formatOf c = some .rgba5551 ↔ c = 0) ∧ (formatOf c = some .i4 ↔ c = 1) ∧
    (formatOf c = some .i8 ↔ c = 2) ∧ (formatOf c = some .ia4 ↔ c = 3) ∧
    (formatOf c = some .ia8 ↔ c = 4) ∧ (formatOf c = none ↔ c = 5 ∨ c = 6 ∨ c = 7)) ∧
  (∀ f : Format, f.code = match f with
    | .rgba5551 => 0 | .i4 => 1 | .i8 => 2 | .ia4 => 3 | .ia8 => 4) ∧
  (∀ f : Format, f.token = match f with
    | .rgba5551 => "rgba5551" | .i4 => "i4" | .i8 => "i8" | .ia4 => "ia4" | .ia8 => "ia8") ∧
  (∀ f : Format, f.bpp = match f with
    | .rgba5551 => 16 | .i4 => 4 | .i8 => 8 | .ia4 => 4 | .ia8 => 8) ∧
  (∀ f : Format, f.widthClass = match f with
    | .rgba5551 => .w16 | .i4 => .w4 | .i8 => .w8 | .ia4 => .w4 | .ia8 => .w8) ∧
  ∀ f : Format, pixelOps f.code = match f with
    | .rgba5551 => [.encRgba5551, .emit16, .next]
    | .i4 => [.encI4, .emit4, .next]
    | .i8 => [.encI8, .emit8, .next]
    | .ia4 => [.encIa4, .emit4, .next]
    | .ia8 => [.encIa8, .emit8, .next]

/-! ### The intensity and the encoders -/

/-- R70, R71: `INTENS` drives `SUM` with the exact sum and `INT` with its truncated third, changes nothing
else, and is selected under the codes 1 to 4. -/
def Obligations.IntensityIsTruncatedAverage : Prop :=
  (∀ c : FmtCode, decode (.internal .intensity c) = .ok .intens ↔ c = 1 ∨ c = 2 ∨ c = 3 ∨ c = 4) ∧
  ∀ s : State, ∃ t, exec .intens s = .next t ∧
    t.sum.toNat = s.px.r.toNat + s.px.g.toNat + s.px.b.toNat ∧
    t.int.toNat = (s.px.r.toNat + s.px.g.toNat + s.px.b.toNat) / 3 ∧
    t = { s with sum := t.sum, int := t.int }

/-- R74: the intensity needs no divider. -/
def Obligations.IntensityNeedsNoDivider : Prop :=
  ∀ s t : State, exec .intens s = .next t → t.int.toNat = (t.sum.toNat * 683) >>> 11

/-- R76, R81: `ENC.RGBA5551`, by multiplications and as concatenated fields; only `A1` and `BG` change. -/
def Obligations.EncRgba5551PacksFiveBitFields : Prop :=
  decode (.fmt 0b000) = .ok .encRgba5551 ∧
  ∀ s : State, ∃ t, exec .encRgba5551 s = .next t ∧
    t.bg.toNat = s.px.r.toNat / 8 * 0x0800 + s.px.g.toNat / 8 * 0x0040 + s.px.b.toNat / 8 * 0x0002 +
      (if s.px.a.toNat > 0 then 1 else 0) ∧
    t.bg = s.px.r.extractLsb' 3 5 ++ s.px.g.extractLsb' 3 5 ++ s.px.b.extractLsb' 3 5 ++ t.a1 ∧
    t.a1.toNat = (if s.px.a.toNat > 0 then 1 else 0) ∧
    t = { s with a1 := t.a1, bg := t.bg }

/-- R77: `ENC.I4` is the intensity divided by 16, whatever the alpha. -/
def Obligations.EncI4TakesSixteenths : Prop :=
  decode (.fmt 0b001) = .ok .encI4 ∧
  ∀ s : State, ∃ t, exec .encI4 s = .next t ∧
    t.bg.toNat = (s.px.r.toNat + s.px.g.toNat + s.px.b.toNat) / 3 / 16 ∧ t.bg.toNat < 16 ∧
    t.int.toNat = (s.px.r.toNat + s.px.g.toNat + s.px.b.toNat) / 3 ∧
    t = { s with sum := t.sum, int := t.int, bg := t.bg }

/-- R78: `ENC.I8` is the intensity, whatever the alpha. -/
def Obligations.EncI8IsTheIntensity : Prop :=
  decode (.fmt 0b010) = .ok .encI8 ∧
  ∀ s : State, ∃ t, exec .encI8 s = .next t ∧
    t.bg.toNat = (s.px.r.toNat + s.px.g.toNat + s.px.b.toNat) / 3 ∧ t.bg.toNat < 256 ∧
    t.int.toNat = (s.px.r.toNat + s.px.g.toNat + s.px.b.toNat) / 3 ∧
    t = { s with sum := t.sum, int := t.int, bg := t.bg }

/-- R79, R81: `ENC.IA4` is three bits of intensity above one of alpha. -/
def Obligations.EncIa4JoinsThreeBitsAndAlpha : Prop :=
  decode (.fmt 0b011) = .ok .encIa4 ∧
  ∀ s : State, ∃ t, exec .encIa4 s = .next t ∧
    t.bg.toNat = ((s.px.r.toNat + s.px.g.toNat + s.px.b.toNat) / 3 / 32) <<< 1 |||
      (if s.px.a.toNat > 0 then 1 else 0) ∧
    t.bg.toNat < 16 ∧
    t.int.toNat = (s.px.r.toNat + s.px.g.toNat + s.px.b.toNat) / 3 ∧
    t.a1.toNat = (if s.px.a.toNat > 0 then 1 else 0) ∧
    t = { s with sum := t.sum, int := t.int, a1 := t.a1, bg := t.bg }

/-- R80, R82: `ENC.IA8` is four bits of intensity above four of alpha, both truncated. -/
def Obligations.EncIa8JoinsFourAndFourBits : Prop :=
  decode (.fmt 0b100) = .ok .encIa8 ∧
  ∀ s : State, ∃ t, exec .encIa8 s = .next t ∧
    t.bg.toNat = ((s.px.r.toNat + s.px.g.toNat + s.px.b.toNat) / 3 / 16) <<< 4 ||| s.px.a.toNat / 16 ∧
    t.bg.toNat < 256 ∧
    t.int.toNat = (s.px.r.toNat + s.px.g.toNat + s.px.b.toNat) / 3 ∧
    t = { s with sum := t.sum, int := t.int, bg := t.bg }

/-- R75, R84: the bit-group is `enc(format, PX)`: two states that agree on `PX` alone give one bit-group. -/
def Obligations.EncoderSeesOnlyTheSample : Prop :=
  ∀ (f : Format) (s₁ s₂ : State), s₁.px = s₂.px →
    ∃ t₁ t₂, exec f.encoder s₁ = .next t₁ ∧ exec f.encoder s₂ = .next t₂ ∧
      t₁.bg = enc f s₁.px ∧ t₂.bg = t₁.bg

/-- R57, R86: the bits of a bit-group above the format's width are zero. -/
def Obligations.GroupFitsItsFormat : Prop :=
  ∀ (f : Format) (s t : State), exec f.encoder s = .next t → t.bg.toNat < 2 ^ f.bpp

/-! ### The packer -/

/-- R95: `EMIT16`, both writes accepted, the first refused, the second refused. Whether a refused byte
stands in the storage is open (R132; log entry 9). -/
def Obligations.EmitSixteenWritesHighByteFirst : Prop :=
  (∀ c : FmtCode, decode (.internal .emitter c) = .ok .emit16 ↔ c = 0) ∧
  ∀ (s : State) (rest : List Bool),
    (s.env.writeAns = true :: true :: rest →
      exec .emit16 s = .next { s with
        bcnt := s.bcnt + 2,
        env := { s.env with
          writeAns := rest,
          snk := s.env.snk ++ [(Mem.endAddr s.env.snk, s.bg.extractLsb' 8 8),
            (Mem.endAddr s.env.snk + 1, s.bg.extractLsb' 0 8)],
          events := s.env.events ++ [.sinkWrite (s.bg.extractLsb' 8 8) true,
            .sinkWrite (s.bg.extractLsb' 0 8) true] } }) ∧
    (s.env.writeAns = false :: rest →
      ∃ t, exec .emit16 s = .next t ∧
        t = { s with
          errcode := 3, phase := .err,
          env := { s.env with
            writeAns := rest, draws := t.env.draws, snk := t.env.snk,
            events := s.env.events ++ [.sinkWrite (s.bg.extractLsb' 8 8) false] } } ∧
        (t.env.snk = s.env.snk ∨
          t.env.snk = s.env.snk ++ [(Mem.endAddr s.env.snk, s.bg.extractLsb' 8 8)])) ∧
    (s.env.writeAns = true :: false :: rest →
      ∃ t, exec .emit16 s = .next t ∧
        t = { s with
          bcnt := s.bcnt + 1, errcode := 3, phase := .err,
          env := { s.env with
            writeAns := rest, draws := t.env.draws, snk := t.env.snk,
            events := s.env.events ++ [.sinkWrite (s.bg.extractLsb' 8 8) true,
              .sinkWrite (s.bg.extractLsb' 0 8) false] } } ∧
        (t.env.snk = s.env.snk ++ [(Mem.endAddr s.env.snk, s.bg.extractLsb' 8 8)] ∨
          t.env.snk = s.env.snk ++ [(Mem.endAddr s.env.snk, s.bg.extractLsb' 8 8),
            (Mem.endAddr s.env.snk + 1, s.bg.extractLsb' 0 8)]))

/-- R96: `EMIT8`, the write accepted or refused. -/
def Obligations.EmitEightWritesOneByte : Prop :=
  (∀ c : FmtCode, decode (.internal .emitter c) = .ok .emit8 ↔ c = 2 ∨ c = 4) ∧
  ∀ (s : State) (rest : List Bool),
    (s.env.writeAns = true :: rest →
      exec .emit8 s = .next { s with
        bcnt := s.bcnt + 1,
        env := { s.env with
          writeAns := rest,
          snk := s.env.snk ++ [(Mem.endAddr s.env.snk, s.bg.extractLsb' 0 8)],
          events := s.env.events ++ [.sinkWrite (s.bg.extractLsb' 0 8) true] } }) ∧
    (s.env.writeAns = false :: rest →
      ∃ t, exec .emit8 s = .next t ∧
        t = { s with
          errcode := 3, phase := .err,
          env := { s.env with
            writeAns := rest, draws := t.env.draws, snk := t.env.snk,
            events := s.env.events ++ [.sinkWrite (s.bg.extractLsb' 0 8) false] } } ∧
        (t.env.snk = s.env.snk ∨
          t.env.snk = s.env.snk ++ [(Mem.endAddr s.env.snk, s.bg.extractLsb' 0 8)]))

/-- R97: `EMIT4` holds the first nibble of a pair and completes the byte with the second; a refused write
leaves `ACC` and `PEND`. -/
def Obligations.EmitFourHoldsThenCompletes : Prop :=
  (∀ c : FmtCode, decode (.internal .emitter c) = .ok .emit4 ↔ c = 1 ∨ c = 3) ∧
  ∀ (s : State) (rest : List Bool),
    (s.pend = false →
      exec .emit4 s = .next { s with acc := s.bg.extractLsb' 0 4 ++ 0#4, pend := true }) ∧
    (s.pend = true → s.env.writeAns = true :: rest →
      exec .emit4 s = .next { s with
        acc := 0, pend := false, bcnt := s.bcnt + 1,
        env := { s.env with
          writeAns := rest,
          snk := s.env.snk ++ [(Mem.endAddr s.env.snk, s.acc ||| (0#4 ++ s.bg.extractLsb' 0 4))],
          events := s.env.events ++ [.sinkWrite (s.acc ||| (0#4 ++ s.bg.extractLsb' 0 4)) true] } }) ∧
    (s.pend = true → s.env.writeAns = false :: rest →
      ∃ t, exec .emit4 s = .next t ∧
        t = { s with
          errcode := 3, phase := .err,
          env := { s.env with
            writeAns := rest, draws := t.env.draws, snk := t.env.snk,
            events := s.env.events ++
              [.sinkWrite (s.acc ||| (0#4 ++ s.bg.extractLsb' 0 4)) false] } } ∧
        (t.env.snk = s.env.snk ∨
          t.env.snk = s.env.snk ++
            [(Mem.endAddr s.env.snk, s.acc ||| (0#4 ++ s.bg.extractLsb' 0 4))]))

/-- R98: `FLUSH4`, for every format, writes a held nibble, and does nothing when none is held; in a
conversion one is held exactly for an odd number of pixels of a 4-bit format, and the byte that holds it
has a zero low nibble (R22). -/
def Obligations.FlushWritesTheHeldNibble : Prop :=
  (∀ c : FmtCode, decode (.internal .flush c) = .ok .flush4 ↔ c.toNat ≤ 4) ∧
  (∀ (s : State) (f : Format), ConvInv s → s.phase = .flush → formatOf s.fmt = some f →
    (s.pend = true ↔ f.widthClass = .w4 ∧ s.width * s.height % 2 = 1) ∧
    (s.pend = true → s.acc.extractLsb' 0 4 = 0) ∧ (s.pend = false → s.acc = 0)) ∧
  ∀ (s : State) (rest : List Bool),
    (s.pend = false → exec .flush4 s = .next s) ∧
    (s.pend = true → s.env.writeAns = true :: rest →
      exec .flush4 s = .next { s with
        acc := 0, pend := false, bcnt := s.bcnt + 1,
        env := { s.env with
          writeAns := rest,
          snk := s.env.snk ++ [(Mem.endAddr s.env.snk, s.acc)],
          events := s.env.events ++ [.sinkWrite s.acc true] } }) ∧
    (s.pend = true → s.env.writeAns = false :: rest →
      ∃ t, exec .flush4 s = .next t ∧
        t = { s with
          errcode := 3, phase := .err,
          env := { s.env with
            writeAns := rest, draws := t.env.draws, snk := t.env.snk,
            events := s.env.events ++ [.sinkWrite s.acc false] } } ∧
        (t.env.snk = s.env.snk ∨ t.env.snk = s.env.snk ++ [(Mem.endAddr s.env.snk, s.acc)]))

/-- R92: `NEXT` counts `IDX` and moves to the next column, or to the next row at the end of one; it is the
last operation of a `RUN` step that handles a pixel. -/
def Obligations.NextAdvancesRowMajor : Prop :=
  (∀ f : Format, (pixelOps f.code).getLast? = some .next) ∧
  ∀ s : State,
    (s.col + 1 = s.width →
      exec .next s = .next { s with idx := s.idx + 1, col := 0, row := s.row + 1 }) ∧
    (s.col + 1 ≠ s.width →
      exec .next s = .next { s with idx := s.idx + 1, col := s.col + 1 })

/-- R33: an instruction stores only at the end of the sink's storage: `EMIT16` at the first two free
addresses, `EMIT8`, `EMIT4` and `FLUSH4` at the first, the last two only when a nibble is held; every
other address reads as before, and no other instruction stores at all. The image is never written (R30). -/
def Obligations.InstructionsStoreOnlyAtTheEnd : Prop :=
  ∀ (i : Instr) (s t : State), exec i s = .next t →
    (∀ a, a ≠ Mem.endAddr s.env.snk → a ≠ Mem.endAddr s.env.snk + 1 →
      Mem.read? t.env.snk a = Mem.read? s.env.snk a) ∧
    (i ≠ .emit16 → ∀ a, a ≠ Mem.endAddr s.env.snk →
      Mem.read? t.env.snk a = Mem.read? s.env.snk a) ∧
    ((i ∉ [.emit16, .emit8, .emit4, .flush4] ∨ (i ∈ [.emit4, .flush4] ∧ s.pend = false)) →
      t.env.snk = s.env.snk) ∧
    t.env.image = s.env.image

/-- R95 to R98, R18: whatever the sink answers, scripted or free, the emitters and the flush complete: the
bytes it accepts, and no other, are counted, and either nothing is raised or `SinkFailure` is; the format,
the dimensions, the iterator, `PX` and the wires stay. -/
def Obligations.EmittersCompleteWhateverTheSinkAnswers : Prop :=
  ∀ (i : Instr) (s : State), i ∈ [.emit16, .emit8, .emit4, .flush4] →
    ∃ t new, exec i s = .next t ∧ t.written = s.written ++ new ∧
      t.bcnt = s.bcnt + new.length ∧
      ((t.phase = s.phase ∧ t.errcode = s.errcode) ∨
        (t.phase = .err ∧ t.errcode = 3 ∧ t.acc = s.acc ∧ t.pend = s.pend)) ∧
      t.fmt = s.fmt ∧ t.width = s.width ∧ t.height = s.height ∧ t.row = s.row ∧ t.col = s.col ∧
      t.idx = s.idx ∧ t.px = s.px ∧ t.sum = s.sum ∧ t.int = s.int ∧ t.a1 = s.a1 ∧ t.bg = s.bg

/-! ### Commands and reserved codes -/

/-- R110, R118: `START` clears the per-conversion state and enters `CHECK` unless the core is busy, when
nothing changes. Nothing is said here of the model's record (log entry 7). -/
def Obligations.StartBeginsOnlyWhenNotBusy : Prop :=
  ∀ s : State,
    (s.phase = .idle ∨ s.phase = .done ∨ s.phase = .err →
      ∃ t, exec .start s = .next t ∧
        t = { s with
          errcode := 0, row := 0, col := 0, idx := 0, bcnt := 0, acc := 0, pend := false,
          phase := .check, env := { s.env with events := t.env.events } }) ∧
    (s.phase = .check ∨ s.phase = .run ∨ s.phase = .flush ∨ s.phase = .close →
      exec .start s = .next s)

/-- R12: a `CTRL` word without bit 0 is no command. -/
def Obligations.CtrlNoneChangesNothing : Prop :=
  ∀ s : State, exec .ctrlNone s = .next s

/-- R54, R131: the three reserved rows raise `InvalidFormat`, all alike, writing nothing else. -/
def Obligations.ReservedRowsRaiseInvalidFormat : Prop :=
  ∀ (i : Instr) (s : State), i ∈ [.reserved5, .reserved6, .reserved7] →
    exec i s = .next { s with errcode := 1, phase := .err }

/-- R54, R126: with a reserved code the `CHECK` step raises `InvalidFormat` and makes no request at all. -/
def Obligations.ReservedCodeRaisesBeforeAnyRequest : Prop :=
  ∀ s : State, s.env.moves = [] → s.phase = .check → 5 ≤ s.fmt.toNat →
    step s = .next { s with errcode := 1, phase := .err }

/-! ### The steps of the core -/

/-- R111, R127, R128: the `CHECK` step asks the source, then the sink, and stops at the first failure. -/
def Obligations.CheckStepOpensSourceThenSink : Prop :=
  ∀ (s : State) (img : Image) (src : List (Option Image)) (rdy : List Bool),
    s.env.moves = [] → s.phase = .check →
    (5 ≤ s.fmt.toNat → step s = .next { s with errcode := 1, phase := .err }) ∧
    (s.fmt.toNat ≤ 4 → s.env.sources = none :: src →
      step s = .next { s with
        errcode := 2, phase := .err,
        env := { s.env with sources := src, events := s.env.events ++ [.srcOpen none] } }) ∧
    (s.fmt.toNat ≤ 4 → s.env.sources = some img :: src → s.env.readyAns = false :: rdy →
      step s = .next { s with
        errcode := 3, phase := .err, width := img.width, height := img.height,
        env := { s.env with
          sources := src, readyAns := rdy, image := img,
          events := s.env.events ++ [.srcOpen (some (img.width, img.height)), .sinkReady false] } }) ∧
    (s.fmt.toNat ≤ 4 → s.env.sources = some img :: src → s.env.readyAns = true :: rdy →
      step s = .next { s with
        phase := .run, width := img.width, height := img.height,
        env := { s.env with
          sources := src, readyAns := rdy, image := img,
          events := s.env.events ++ [.srcOpen (some (img.width, img.height)), .sinkReady true] } })

/-- R93, relying on the spec's own decision D5 that an empty image is accepted (92_eei_decisions.md): with
no pixels at all, whichever dimension is 0, the first `RUN` step moves to `FLUSH`, and two more steps
complete the conversion with no byte written. -/
def Obligations.EmptyImageGivesAnEmptyStream : Prop :=
  ∀ (s : State) (cl : List Bool), ConvInv s → s.env.moves = [] → s.phase = .run → s.idx = 0 →
    s.width = 0 ∨ s.height = 0 → s.env.closeAns = true :: cl →
    ∃ t, Host.Core.run Sys2Proof.core 3 s = .next t ∧ t.phase = .done ∧ t.written = [] ∧ t.bcnt = 0 ∧
      t.env.snk = s.env.snk ∧ t.env.events = s.env.events ++ [.sinkClose true]

/-- A step is the next move of the environment, or the core's own with none there (the moves as a list
are the model's form, log entry 6); and it runs the instruction that the fetched code or the written word
decodes to: in `RUN` with a pixel left the sample is latched, then the code's row and the operations after it run in order until one
raises an error; in `CHECK` a reserved row; in `FLUSH` `FLUSH4` and then the move to `CLOSE`; on a write
to `CTRL` its command. -/
def Obligations.StepRunsTheDecodedInstruction : Prop :=
  (∀ (s : State) (m : Move) (rest : List Move), s.env.moves = m :: rest →
    step s = moveStep m { s with env := { s.env with moves := rest } }) ∧
  (∀ s : State, s.env.moves = [] → step s = moveStep .core s) ∧
  (∀ s : State, moveStep .core s = coreStep s) ∧
  (∀ (s : State) (i : Instr), s.env.moves = [] → s.phase = .run → decode (.fmt s.fmt) = .ok i →
    s.idx ≠ s.width * s.height →
    s.row < s.env.image.height → s.col < s.env.image.width →
    ∃ rest w, pixelOps s.fmt = i :: rest ∧
      w = s.env.image.at (s.row * s.env.image.width + s.col) ∧
      step s = runOps (i :: rest) { s with
        px := Sample.ofWord w,
        env := { s.env with events := s.env.events ++ [.srcRead s.row s.col w] } }) ∧
  (∀ (i : Instr) (rest : List Instr) (s t : State), exec i s = .next t →
    (t.phase = .err → runOps (i :: rest) s = .next t) ∧
    (t.phase ≠ .err → runOps (i :: rest) s = runOps rest t)) ∧
  (∀ s : State, runOps [] s = .next s) ∧
  (∀ (s : State) (i : Instr), s.env.moves = [] → s.phase = .check → formatOf s.fmt = none →
    decode (.fmt s.fmt) = .ok i → step s = exec i s) ∧
  (∀ s t : State, s.env.moves = [] → s.phase = .flush → exec .flush4 s = .next t →
    (t.phase = .err → step s = .next t) ∧
    (t.phase ≠ .err → step s = .next { t with phase := .close })) ∧
  (∀ (s : State) (w : Nat) (i : Instr) (rest : List Move), s.env.moves = .write 1 w :: rest →
    decode (.ctrl w) = .ok i → step s = exec i { s with env := { s.env with moves := rest } })

/-- R31, R32, R56: an image of given sample words, row 0, column 0 first, answers a read at `(row, col)`
with the word of flat index `row * WIDTH + col`, recording the request and changing nothing else; its
pixels are the samples in that order; a sample word is its four channels. The image as a list is the
model's form (log entry 3). -/
def Obligations.SourceReadsItsSamples : Prop :=
  (∀ (w h : Nat) (ws : List SampleWord), ws.length = w * h →
    (Image.ofWords w h ws).width = w ∧ (Image.ofWords w h ws).height = h ∧
    (∀ i, i < w * h → ws[i]? = some ((Image.ofWords w h ws).at i)) ∧
    (Image.ofWords w h ws).pixels = ws.map Sample.ofWord ∧
    ∀ (s : State) (row col : Nat), s.env.image = Image.ofWords w h ws → row < h → col < w →
      ∃ x, ws[row * w + col]? = some x ∧
        s.srcRead row col = some (x, { s with
          env := { s.env with events := s.env.events ++ [.srcRead row col x] } })) ∧
  (∀ x : SampleWord, Sample.ofWord x =
    { r := x.extractLsb' 24 8, g := x.extractLsb' 16 8, b := x.extractLsb' 8 8, a := x.extractLsb' 0 8 }) ∧
  ∀ p : Sample, Sample.ofWord p.word = p

/-- R112, R99: a `RUN` step with no pixel left moves to `FLUSH`; with one left and a sink that accepts,
the sample is read at `(ROW, COL)`, latched channel by channel (R56), encoded in the format, emitted by
the width class, and the iterator advances; when the sink refuses, `SinkFailure` is raised and the
iterator still names the pixel. -/
def Obligations.RunStepHandlesOnePixel : Prop :=
  (∀ s : State, s.env.moves = [] → s.phase = .run → s.idx = s.width * s.height →
    step s = .next { s with phase := .flush }) ∧
  (∀ (s : State) (f : Format), s.env.moves = [] → s.phase = .run → formatOf s.fmt = some f →
    s.idx ≠ s.width * s.height →
    s.row < s.env.image.height → s.col < s.env.image.width →
    ∃ t w, step s = .next t ∧ w = s.env.image.at (s.row * s.env.image.width + s.col) ∧
      t.px.r = w.extractLsb' 24 8 ∧ t.px.g = w.extractLsb' 16 8 ∧ t.px.b = w.extractLsb' 8 8 ∧
      t.px.a = w.extractLsb' 0 8 ∧ (t.phase = .run ∨
      (t.phase = .err ∧ t.errcode = 3 ∧ t.row = s.row ∧ t.col = s.col ∧ t.idx = s.idx))) ∧
  ∀ (s : State) (f : Format) (rest : List Bool), s.env.moves = [] → s.phase = .run →
    formatOf s.fmt = some f → s.idx ≠ s.width * s.height →
    s.row < s.env.image.height → s.col < s.env.image.width →
    s.env.writeAns = true :: true :: rest →
    ∃ t w, step s = .next t ∧ t.phase = .run ∧
      w = s.env.image.at (s.row * s.env.image.width + s.col) ∧ t.px = Sample.ofWord w ∧
      t.px.r = w.extractLsb' 24 8 ∧ t.px.g = w.extractLsb' 16 8 ∧ t.px.b = w.extractLsb' 8 8 ∧
      t.px.a = w.extractLsb' 0 8 ∧
      t.bg = enc f t.px ∧ t.idx = s.idx + 1 ∧
      (s.col + 1 = s.width → t.col = 0 ∧ t.row = s.row + 1) ∧
      (s.col + 1 ≠ s.width → t.col = s.col + 1 ∧ t.row = s.row) ∧
      t.fmt = s.fmt ∧ t.width = s.width ∧ t.height = s.height ∧ t.errcode = s.errcode ∧
      (f.widthClass = .w16 →
        t.written = s.written ++ [t.bg.extractLsb' 8 8, t.bg.extractLsb' 0 8] ∧
        t.bcnt = s.bcnt + 2 ∧ t.acc = s.acc ∧ t.pend = s.pend) ∧
      (f.widthClass = .w8 →
        t.written = s.written ++ [t.bg.extractLsb' 0 8] ∧
        t.bcnt = s.bcnt + 1 ∧ t.acc = s.acc ∧ t.pend = s.pend) ∧
      (f.widthClass = .w4 → s.pend = false →
        t.written = s.written ∧ t.bcnt = s.bcnt ∧
        t.acc = t.bg.extractLsb' 0 4 ++ 0#4 ∧ t.pend = true) ∧
      (f.widthClass = .w4 → s.pend = true →
        t.written = s.written ++ [s.acc ||| (0#4 ++ t.bg.extractLsb' 0 4)] ∧
        t.bcnt = s.bcnt + 1 ∧ t.acc = 0 ∧ t.pend = false)

/-- R113: the `FLUSH` step runs `FLUSH4` and moves to `CLOSE`, or to `ERR` when its write is refused.
Whether the refused byte stands in the storage is open (R132; log entry 9). -/
def Obligations.FlushStepThenCloses : Prop :=
  ∀ (s : State) (rest : List Bool), s.env.moves = [] → s.phase = .flush →
    (s.pend = false → step s = .next { s with phase := .close }) ∧
    (s.pend = true → s.env.writeAns = true :: rest →
      step s = .next { s with
        phase := .close, acc := 0, pend := false, bcnt := s.bcnt + 1,
        env := { s.env with
          writeAns := rest, snk := s.env.snk ++ [(Mem.endAddr s.env.snk, s.acc)],
          events := s.env.events ++ [.sinkWrite s.acc true] } }) ∧
    (s.pend = true → s.env.writeAns = false :: rest →
      ∃ t, step s = .next t ∧
        t = { s with
          errcode := 3, phase := .err,
          env := { s.env with
            writeAns := rest, draws := t.env.draws, snk := t.env.snk,
            events := s.env.events ++ [.sinkWrite s.acc false] } } ∧
        (t.env.snk = s.env.snk ∨ t.env.snk = s.env.snk ++ [(Mem.endAddr s.env.snk, s.acc)]))

/-- R114: the `CLOSE` step closes the sink and is done, or raises `SinkFailure`; no step but the core's own
in `CLOSE` closes the sink, a move of the host there leaving the core in `CLOSE` or reset, and `CLOSE` is
entered only from `FLUSH`. -/
def Obligations.CloseStepFinishes : Prop :=
  (∀ s t : State,
    ¬(s.phase = .close ∧ (s.env.moves = [] ∨ ∃ rest, s.env.moves = .core :: rest)) → step s = .next t →
    (∀ ok, .sinkClose ok ∈ t.env.events → .sinkClose ok ∈ s.env.events) ∧
    (t.phase = .close → s.phase = .flush ∨ s.phase = .close) ∧
    (s.phase = .close → t.phase = .close ∨ ∃ rest, s.env.moves = .reset :: rest)) ∧
  ∀ (s : State) (rest : List Bool), s.env.moves = [] → s.phase = .close →
    (s.env.closeAns = true :: rest →
      step s = .next { s with
        phase := .done,
        env := { s.env with closeAns := rest, events := s.env.events ++ [.sinkClose true] } }) ∧
    (s.env.closeAns = false :: rest →
      step s = .next { s with
        errcode := 3, phase := .err,
        env := { s.env with closeAns := rest, events := s.env.events ++ [.sinkClose false] } })

/-- R115: `DONE` and `ERR` are resting states, left only by an accepted `START` or by reset. -/
def Obligations.RestingStatesAreLeftOnlyByStartOrReset : Prop :=
  (∀ s : State, s.env.moves = [] → s.phase = .done ∨ s.phase = .err → step s = .next s) ∧
  ∀ (s t : State) (m : Move) (rest : List Move), s.phase = .done ∨ s.phase = .err →
    s.env.moves = m :: rest → step s = .next t → t.phase ≠ s.phase →
    m = .reset ∨ ∃ w, w % 2 = 1 ∧ m = .write 1 w

/-- R131: whatever raises an error in a step of the core, the format, the iterator, `ACC` and `PEND` keep
the values they had, and at most the first byte of a 16-bit group is counted. That a
`RUN` step with a reserved code, which no run reaches, raises `InvalidFormat` is the model's choice (log
entry 14). -/
def Obligations.RaisingKeepsTheRegisters : Prop :=
  ∀ s t : State, s.env.moves = [] → s.phase ≠ .err → step s = .next t → t.phase = .err →
    t.fmt = s.fmt ∧ t.row = s.row ∧ t.col = s.col ∧ t.idx = s.idx ∧ t.acc = s.acc ∧ t.pend = s.pend ∧
    (t.bcnt = s.bcnt ∨ (s.phase = .run ∧ s.fmt = 0 ∧ t.bcnt = s.bcnt + 1)) ∧
    (s.phase ≠ .check → t.width = s.width ∧ t.height = s.height) ∧
    (t.errcode = 1 ↔ 5 ≤ s.fmt.toNat ∧ (s.phase = .check ∨ s.phase = .run)) ∧
    (t.errcode = 2 → s.phase = .check) ∧ t.errcode ≠ 0

/-- R132, R120: a step of a conversion that ends in `ERR` leaves the bytes accepted as the first `BCNT`
bytes of the stream of the format in `FMT`, and the history as a first part of that format's whose last
request failed; in `CHECK` none was accepted. -/
def Obligations.AbortedRunLeavesAFirstPartOfItsStream : Prop :=
  ∀ s t : State, ConvInv s → HistoryInv s → s.phase.busy = true → step s = .next t → t.phase = .err →
    t.fmt = s.fmt ∧ t.bcnt = t.written.length ∧ (s.phase = .check → t.written = []) ∧
    (s.phase ≠ .check → t.errcode = 3 ∧
      ∃ f, formatOf t.fmt = some f ∧ t.written = (pack f t.env.image.pixels).take t.bcnt ∧
        ∃ h e, t.env.events = h ++ [e] ∧ e.sinkFailed = true ∧
          h ++ [e.accepted] <+: fullHistory f t.env.image)

/-- R129, R131: `raise` writes `ERRCODE` with the error's code and `PHASE` with `ERR`, and nothing else; then
the core rests and asks nothing more. -/
def Obligations.RaiseWritesCodeAndPhase : Prop :=
  ∀ s : State,
    s.raise .invalidFormat = { s with errcode := 1, phase := .err } ∧
    s.raise .sourceUnavailable = { s with errcode := 2, phase := .err } ∧
    s.raise .sinkFailure = { s with errcode := 3, phase := .err } ∧
    ∀ e, s.env.moves = [] → step (s.raise e) = .next (s.raise e)

/-! ### The host's register accesses and reset -/

/-- R24, R117: the register space. What a host read of each number returns, changing nothing in the core
and answered at once; what a host write to each number does; what each register reads after reset. -/
def Obligations.RegisterSpaceIsTheTable : Prop :=
  (∀ (s : State) (n : Nat), moveStep (.read n) s = .next { s with
    env := { s.env with replies := s.env.replies ++ [(n, s.readReg n)] } }) ∧
  (∀ s : State,
    s.readReg 0 = s.fmt.toNat ∧ s.readReg 1 = 0 ∧
    s.readReg 2 = 4 * s.errcode.toNat +
      (match s.phase with
        | .idle => 0 | .check => 1 | .run => 1 | .flush => 1 | .close => 1 | .done => 2 | .err => 3) ∧
    s.readReg 3 = s.width ∧ s.readReg 4 = s.height ∧
    s.readReg 5 = s.bcnt ∧ s.readReg 6 = s.idx ∧
    ∀ n, 6 < n → s.readReg n = 0) ∧
  (∀ (s : State) (w : Nat),
    (s.phase.busy = false → moveStep (.write 0 w) s = .next { s with fmt := BitVec.ofNat 3 w }) ∧
    (s.phase.busy = true → moveStep (.write 0 w) s = .next s) ∧
    (w % 2 = 1 → moveStep (.write 1 w) s = exec .start s) ∧
    (w % 2 = 0 → moveStep (.write 1 w) s = .next s) ∧
    ∀ n, 2 ≤ n → moveStep (.write n w) s = .next s) ∧
  (∀ p : Phase, p.busy = true ↔ p = .check ∨ p = .run ∨ p = .flush ∨ p = .close) ∧
  (List.range 7).map State.reset.readReg = [7, 0, 0, 0, 0, 0, 0]

/-- R26: the registers after reset; the core does nothing until `START`. (`PX` has no reset value in the
spec and is not named here.) -/
def Obligations.ResetLeavesTheTabledValues : Prop :=
  State.reset.fmt = 7 ∧ State.reset.phase = .idle ∧ State.reset.errcode = 0 ∧
  State.reset.width = 0 ∧ State.reset.height = 0 ∧ State.reset.row = 0 ∧ State.reset.col = 0 ∧
  State.reset.idx = 0 ∧ State.reset.bcnt = 0 ∧ State.reset.acc = 0 ∧ State.reset.pend = false ∧
  ∀ s : State, s.phase = .idle → s.env.moves = [] → step s = .next s

/-- R146, R145: reset at any time puts the registers at those values, makes no request and leaves the
image, the sink's bytes and the answers still to come. Nothing is said here of the model's record (log
entry 7), nor of `PX` and the wires (log entries 1, 2). -/
def Obligations.ResetMoveAbandonsTheConversion : Prop :=
  ∀ s : State, ∃ t, moveStep .reset s = .next t ∧
    t.fmt = 7 ∧ t.phase = .idle ∧ t.errcode = 0 ∧ t.width = 0 ∧ t.height = 0 ∧ t.row = 0 ∧ t.col = 0 ∧
    t.idx = 0 ∧ t.bcnt = 0 ∧ t.acc = 0 ∧ t.pend = false ∧ t.env = { s.env with events := t.env.events }

/-! ### Rules of the whole machine -/

/-- R116: a host write to `FMT` is taken only while the core is not busy, and no step changes `FMT` while
the core is busy, but reset. -/
def Obligations.FormatIsFixedWhileBusy : Prop :=
  (∀ (s : State) (w : Nat),
    (s.phase = .idle ∨ s.phase = .done ∨ s.phase = .err →
      moveStep (.write 0 w) s = .next { s with fmt := BitVec.ofNat 3 w }) ∧
    (s.phase = .check ∨ s.phase = .run ∨ s.phase = .flush ∨ s.phase = .close →
      moveStep (.write 0 w) s = .next s)) ∧
  ∀ s t : State, s.phase.busy = true → (∀ rest, s.env.moves ≠ .reset :: rest) → step s = .next t →
    t.fmt = s.fmt

/-- R15: `WIDTH` and `HEIGHT` are written in a `CHECK` step, from the answer to `SrcOpen`, and change
nowhere else but at reset. That the open image changes only in a `CHECK` step is the spec's premise R148
as the model has it (log entry 15). -/
def Obligations.DimensionsAreLatchedInCheckOnly : Prop :=
  (∀ s t : State, step s = .next t →
    (t.width ≠ s.width ∨ t.height ≠ s.height →
      (s.phase = .check ∧ .srcOpen (some (t.width, t.height)) ∈ t.env.events) ∨
        ∃ rest, s.env.moves = .reset :: rest) ∧
    (t.env.image ≠ s.env.image → s.phase = .check)) ∧
  ∀ s t : State, s.env.moves = [] → s.phase = .check → step s = .next t →
    ∀ w h a, t.env.events = s.env.events ++ [.srcOpen (some (w, h)), .sinkReady a] →
    t.width = w ∧ t.height = h

/-- R33: the sink's storage only grows at its end, unless the glue presents another sink. -/
def Obligations.SinkOnlyGrowsAtItsEnd : Prop :=
  ∀ s t : State, (∀ content rest, s.env.moves ≠ .sink content :: rest) → step s = .next t →
    s.env.snk <+: t.env.snk

/-- R147 as the model has it (log entries 4, 15): a sink presented while the core is not busy holds exactly
the given bytes from address 0 on, and nothing else changes. -/
def Obligations.PresentingASinkAtRest : Prop :=
  ∀ (s : State) (content : List Byte) (rest : List Move), s.phase.busy = false →
    s.env.moves = .sink content :: rest →
    ∃ t, step s = .next t ∧ t = { s with env := { s.env with moves := rest, snk := t.env.snk } } ∧
      t.env.snk.map Prod.snd = content ∧ Mem.endAddr t.env.snk = content.length ∧
      ∀ a, Mem.read? t.env.snk a = content[a]?

/-- R33, R45: as long as the sink refuses nothing, its storage ends with the bytes accepted in this
conversion, in the order of their acceptance. -/
def Obligations.AcceptedBytesReachTheStorage : Prop :=
  ∀ s t : State, s.phase.busy = true → s.storesStream → step s = .next t → t.phase ≠ .err →
    t.storesStream

/-- R19, R20: `PX` and the wires carry nothing from one step to the next: a step gives the same outcome,
up to them, whatever they held. -/
def Obligations.LatchAndWiresCarryNothing : Prop :=
  ∀ (s : State) (px : Sample) (sum : BitVec 10) (int : Byte) (a1 : BitVec 1) (bg : Group),
    visibleOutcome (step (s.withScratch px sum int a1 bg)) = visibleOutcome (step s)

/-- R27: after an accepted `START` nothing is left of an earlier conversion but `FMT`, `WIDTH` and
`HEIGHT` and what the environment holds. -/
def Obligations.StartForgetsEarlierConversions : Prop :=
  ∀ s₁ s₂ : State, s₁.phase.busy = false → s₂.phase.busy = false → s₁.fmt = s₂.fmt →
    s₁.width = s₂.width → s₁.height = s₂.height →
    { s₁.env with events := [] } = ({ s₂.env with events := [] } : Env) →
    visibleOutcome (exec .start s₁) = visibleOutcome (exec .start s₂)

/-- R39, R31 with the model's own stops (log entries 11, 12): a `RUN` step with a pixel left stops on a
location outside the image, and a sink presented during a conversion is refused. -/
def Obligations.ModelStopsOutsideTheSpec : Prop :=
  (∀ s : State, s.env.moves = [] → s.phase = .run →
    s.idx ≠ s.width * s.height →
    (s.env.image.height ≤ s.row ∨ s.env.image.width ≤ s.col) →
    step s = .fault .srcReadOutsideImage) ∧
  ∀ (s : State) (content : List Byte) (rest : List Move), s.phase.busy = true →
    s.env.moves = .sink content :: rest → step s = .refused .sinkPresentedWhileBusy

/-- R39, R136: from a state of a run no step stops, as long as the glue keeps its duty. -/
def Obligations.RunsNeverStop : Prop :=
  ∀ s : State, ConvInv s → s.dutyKept = true → ∃ t, step s = .next t

/-! ### Invariants -/

/-- The memories keep their canonical form (log entries 3, 4). -/
def Obligations.StepKeepsMemoriesCanonical : Prop :=
  ∀ s t : State, s.env.memWf = true → step s = .next t → t.env.memWf = true

/-- The state after reset meets the invariants of a conversion and of its history, and fits every
`DIM_BITS`, the default among them. -/
def Obligations.ResetMeetsTheInvariants : Prop :=
  ConvInv State.reset ∧ HistoryInv State.reset ∧ State.reset.storesStream ∧ FitsWidths State.reset ∧
  ∀ dimBits, FitsWidths State.reset dimBits

/-- R94, R100, R104, R120: every step keeps the invariant of a conversion: the iterator is row-major and
inside the image, the packer's registers and the accepted bytes are those of packing the first `IDX`
pixels, `BCNT` counts the bytes, `ERRCODE` is set exactly in `ERR`, `DONE` means the whole stream and
`ERR` a first part of one. -/
def Obligations.StepKeepsConversionInvariant : Prop :=
  ∀ s t : State, ConvInv s → step s = .next t → ConvInv t

/-- R45, R122, R130: every step keeps the invariant of the event history: requests come in the order of
R122, each after the favourable answer to the one before, and an aborted history ends at its first
failure. -/
def Obligations.StepKeepsHistoryInvariant : Prop :=
  ∀ s t : State, ConvInv s → HistoryInv s → step s = .next t → HistoryInv t

/-- R6, R21: for every `DIM_BITS`, every step keeps each register within the width R6 gives it, as long as
the open image has dimensions of that width (R121; that a larger one cannot be presented is premise 5 of
92_eei_decisions.md, D4). -/
def Obligations.StepKeepsWidths : Prop :=
  ∀ (dimBits : Nat) (s t : State), ConvInv s → FitsWidths s dimBits →
    t.env.image.width < 2 ^ dimBits → t.env.image.height < 2 ^ dimBits → step s = .next t →
    FitsWidths t dimBits

/-- R21, R94: while pixels are handled no counter passes its bound, for every `DIM_BITS` the image fits. -/
def Obligations.CountersCannotOverflow : Prop :=
  ∀ (dimBits : Nat) (s : State), ConvInv s → s.phase = .run → s.width < 2 ^ dimBits →
    s.height < 2 ^ dimBits →
    (s.idx ≠ s.width * s.height → s.row < s.height ∧ s.col < s.width) ∧
    (s.idx = s.width * s.height → 0 < s.width → s.row = s.height ∧ s.col = 0) ∧
    s.idx ≤ s.width * s.height ∧ s.width * s.height < 2 ^ (2 * dimBits) ∧
    s.bcnt ≤ 2 * (s.width * s.height) ∧ 2 * (s.width * s.height) < 2 ^ (2 * dimBits + 1)

/-! ### The stream -/

/-- R101, R44: the length of the packed stream. -/
def Obligations.PackLengthIsExact : Prop :=
  ∀ (f : Format) (ps : List Sample), (pack f ps).length = streamLength f ps.length

/-- R43: every byte of the packed stream, by its offset. -/
def Obligations.PackMeetsTheStreamMap : Prop :=
  ∀ (f : Format) (ps : List Sample) (k : Nat), k < streamLength f ps.length →
    (pack f ps)[k]? = some (streamByte f ps k)

/-- R98: with an odd number of pixels of a 4-bit format the last byte's low nibble is zero and its high
nibble is the last pixel's group. -/
def Obligations.OddStreamEndsInAZeroNibble : Prop :=
  ∀ (f : Format) (ps : List Sample) (p : Sample), f.widthClass = .w4 → (ps ++ [p]).length % 2 = 1 →
    (pack f (ps ++ [p])).getLast? = some ((enc f p).extractLsb' 0 4 ++ 0#4)

/-- R101, R43, R44: a conversion reaches `DONE` with the whole stream of the format in `FMT` and the image,
every byte of it by its offset, its length counted in `BCNT`. -/
def Obligations.DoneMeansTheWholeStream : Prop :=
  ∀ s t : State, ConvInv s → s.env.moves = [] → s.phase = .close → step s = .next t →
    t.phase = .done →
    t.errcode = 0 ∧ t.pend = false ∧ t.acc = 0 ∧ t.idx = t.width * t.height ∧
    ∃ f, formatOf t.fmt = some f ∧ t.written = pack f t.env.image.pixels ∧
      t.bcnt = streamLength f (t.width * t.height) ∧
      t.written.length = (t.width * t.height * f.bpp + 7) / 8 ∧
      ∀ k, k < t.written.length → t.written[k]? = some (streamByte f t.env.image.pixels k)

/-- R122, R120: with favourable answers a conversion ends in `DONE` after `N + 4` steps of the core with
exactly the history of R122 and the stream of R100. Premises: 92_eei_decisions.md, list of premises. The
place of each `SrcRead` among the writes is the spec's own choice (R49, D7). -/
def Obligations.FavourableConversionCompletes : Prop :=
  ∀ (s : State) (f : Format) (img : Image) (src : List (Option Image)) (rdy wr cl : List Bool),
    ConvInv s → HistoryInv s → s.env.moves = [] → s.phase = .check → formatOf s.fmt = some f →
    s.env.sources = some img :: src → s.env.readyAns = true :: rdy →
    s.env.writeAns = List.replicate (streamLength f img.count) true ++ wr →
    s.env.closeAns = true :: cl →
    ∃ t : State, Host.Core.run Sys2Proof.core (img.count + 4) s = .next t ∧
      t.phase = .done ∧ t.errcode = 0 ∧ t.env.events = fullHistory f img ∧
      t.written = pack f img.pixels ∧ t.bcnt = streamLength f img.count ∧
      t.width = img.width ∧ t.height = img.height ∧ t.idx = img.count

/-- R120, R153: whatever the environment answers, a conversion is over after at most `N + 4` steps of the
core. That every request is answered is the model's form of R153 (log entry 5). -/
def Obligations.ConversionEndsWithinPixelCountPlusFour : Prop :=
  ∀ s : State, ConvInv s → s.env.moves = [] → s.phase = .check →
    ∃ (k : Nat) (t : State), k ≤ t.width * t.height + 4 ∧
      Host.Core.run Sys2Proof.core k s = .next t ∧ (t.phase = .done ∨ t.phase = .err)
end

