-- ==== Sys2Proof/Laws/Memory.lean ====
section
/-! SUPPORT. Reading what was stored, and that every memory operation keeps the canonical form. -/

namespace Sys2Proof.Machine

variable {n : Nat} {d : Option (BitVec n)} {m t : List (Nat × BitVec n)} {a b lo hi : Nat}
  {v w : BitVec n}

/-! The canonical form. -/

theorem Mem.risingFrom_mono (h : Mem.risingFrom hi m = true) (hl : lo ≤ hi) :
    Mem.risingFrom lo m = true := by
  cases m with
  | nil => rfl
  | cons c t =>
    simp only [Mem.risingFrom, Bool.and_eq_true, decide_eq_true_eq] at h ⊢
    exact ⟨by omega, h.2⟩

theorem Mem.risingFrom_cell_append (ha : lo ≤ a) (h : Mem.risingFrom (a + 1) t = true) :
    Mem.risingFrom lo (Mem.cell d a v ++ t) = true := by
  unfold Mem.cell
  split
  · exact Mem.risingFrom_mono h (by omega)
  · simp [Mem.risingFrom, ha, h]

theorem Mem.risingFrom_write (ha : lo ≤ a) (h : Mem.risingFrom lo m = true) :
    Mem.risingFrom lo (Mem.write d m a v) = true := by
  induction m generalizing lo with
  | nil => simpa [Mem.write] using Mem.risingFrom_cell_append (d := d) (v := v) (t := []) ha rfl
  | cons c t ih =>
    obtain ⟨b, w⟩ := c
    simp only [Mem.risingFrom, Bool.and_eq_true, decide_eq_true_eq] at h
    unfold Mem.write
    split
    · exact Mem.risingFrom_cell_append ha (by simp [Mem.risingFrom, h.2]; omega)
    · split
      · subst_vars; exact Mem.risingFrom_cell_append ha h.2
      · simp only [Mem.risingFrom, Bool.and_eq_true, decide_eq_true_eq]
        exact ⟨h.1, ih (by omega) h.2⟩

theorem Mem.all_cell : (Mem.cell d a v).all (fun c => decide (d ≠ some c.2)) = true := by
  unfold Mem.cell
  split <;> simp_all

theorem Mem.all_write (h : m.all (fun c => decide (d ≠ some c.2)) = true) :
    (Mem.write d m a v).all (fun c => decide (d ≠ some c.2)) = true := by
  induction m with
  | nil => exact Mem.all_cell
  | cons c t ih =>
    obtain ⟨b, w⟩ := c
    rw [List.all_cons, Bool.and_eq_true] at h
    unfold Mem.write
    split
    · rw [List.all_append, Mem.all_cell, List.all_cons, h.1, h.2]; rfl
    · split
      · rw [List.all_append, Mem.all_cell, h.2]; rfl
      · rw [List.all_cons, h.1, ih h.2]; rfl

theorem Mem.wf_nil : Mem.wf d ([] : List (Nat × BitVec n)) = true := rfl

theorem Mem.wf_write (h : Mem.wf d m = true) : Mem.wf d (Mem.write d m a v) = true := by
  rw [Mem.wf, Bool.and_eq_true] at h ⊢
  exact ⟨Mem.risingFrom_write (Nat.zero_le a) h.1, Mem.all_write h.2⟩

theorem Mem.wf_ofPairs (ps : List (Nat × BitVec n)) : Mem.wf d (Mem.ofPairs d ps) = true := by
  suffices h : ∀ m, Mem.wf d m = true →
      Mem.wf d (ps.foldl (fun m p => Mem.write d m p.1 p.2) m) = true from h [] Mem.wf_nil
  induction ps with
  | nil => exact fun m h => h
  | cons p t ih => exact fun m h => ih _ (Mem.wf_write h)

theorem Mem.risingFrom_append (h : Mem.risingFrom lo m = true) (hl : lo ≤ Mem.endAddr m ∨ m = [])
    (hz : m = [] → lo = 0) : Mem.risingFrom lo (Mem.append m v) = true := by
  suffices key : ∀ (m : List (Nat × BitVec n)) (lo e : Nat), Mem.risingFrom lo m = true →
      Mem.endAddr m ≤ e → lo ≤ e → Mem.risingFrom lo (m ++ [(e, v)]) = true by
    refine key m lo _ h le_rfl ?_
    rcases hl with hl | hl
    · exact hl
    · simp [hz hl]
  intro m
  induction m with
  | nil => intro lo e _ _ hle; simpa [Mem.risingFrom] using hle
  | cons c t ih =>
    obtain ⟨b, w⟩ := c
    intro lo e h he hle
    simp only [Mem.risingFrom, Mem.endAddr, Bool.and_eq_true, decide_eq_true_eq,
      List.cons_append, Nat.max_le] at h he ⊢
    exact ⟨h.1, ih _ _ h.2 he.2 he.1⟩

/-- Appending keeps the canonical form of a memory whose unlisted addresses hold nothing. -/
theorem Mem.wf_append (h : Mem.wf none m = true) : Mem.wf none (Mem.append m v) = true := by
  rw [Mem.wf, Bool.and_eq_true] at h ⊢
  exact ⟨Mem.risingFrom_append h.1 (.inl (Nat.zero_le _)) (fun _ => rfl), by simp [Mem.append]⟩

theorem Mem.risingFrom_ofValues (vs : List (BitVec n)) (a : Nat) :
    Mem.risingFrom a (Mem.ofValues d a vs) = true := by
  induction vs generalizing a with
  | nil => rfl
  | cons v t ih => exact Mem.risingFrom_cell_append le_rfl (ih (a + 1))

theorem Mem.wf_ofValues (vs : List (BitVec n)) (a : Nat) : Mem.wf d (Mem.ofValues d a vs) = true := by
  rw [Mem.wf, Bool.and_eq_true]
  refine ⟨Mem.risingFrom_mono (Mem.risingFrom_ofValues vs a) (Nat.zero_le a), ?_⟩
  induction vs generalizing a with
  | nil => rfl
  | cons v t ih => rw [Mem.ofValues, List.all_append, Mem.all_cell, ih]; rfl

theorem State.reset_memWf : State.reset.env.memWf = true := rfl

/-! Reading what was stored. -/

theorem Mem.read?_cell_append (ha : Mem.read? t a = none) :
    (Mem.read? (Mem.cell d a v ++ t) a).or d = some v := by
  unfold Mem.cell
  split
  · simp_all
  · simp [Mem.read?]

theorem Mem.read?_lt (h : Mem.risingFrom lo m = true) (ha : a < lo) : Mem.read? m a = none := by
  induction m generalizing lo with
  | nil => rfl
  | cons c t ih =>
    obtain ⟨b, w⟩ := c
    simp only [Mem.risingFrom, Bool.and_eq_true, decide_eq_true_eq] at h
    rw [Mem.read?, if_neg (by omega)]
    exact ih h.2 (by omega)

/-- A stored value is read back. -/
theorem Mem.read?_write_same (h : Mem.risingFrom lo m = true) :
    (Mem.read? (Mem.write d m a v) a).or d = some v := by
  induction m generalizing lo with
  | nil => simpa [Mem.write] using Mem.read?_cell_append (d := d) (v := v) (t := []) (a := a) rfl
  | cons c t ih =>
    obtain ⟨b, w⟩ := c
    simp only [Mem.risingFrom, Bool.and_eq_true, decide_eq_true_eq] at h
    unfold Mem.write
    split
    · rename_i hab
      refine Mem.read?_cell_append ?_
      rw [Mem.read?, if_neg (by omega)]
      exact Mem.read?_lt h.2 (by omega)
    · split
      · subst_vars; exact Mem.read?_cell_append (Mem.read?_lt h.2 (by omega))
      · rename_i hab
        rw [Mem.read?, if_neg hab]
        exact ih h.2

theorem Mem.read?_cell_append_other (hb : b ≠ a) :
    Mem.read? (Mem.cell d a v ++ t) b = Mem.read? t b := by
  unfold Mem.cell
  split
  · rfl
  · simp [Mem.read?, hb]

/-- A store leaves every other address alone. -/
theorem Mem.read?_write_other (hb : b ≠ a) : Mem.read? (Mem.write d m a v) b = Mem.read? m b := by
  induction m with
  | nil => simpa [Mem.write] using Mem.read?_cell_append_other (d := d) (v := v) (t := []) hb
  | cons c t ih =>
    obtain ⟨e, w⟩ := c
    unfold Mem.write
    split
    · exact Mem.read?_cell_append_other hb
    · split
      · subst_vars; rw [Mem.read?_cell_append_other hb, Mem.read?, if_neg hb]
      · simp only [Mem.read?, ih]

theorem Mem.read?_append (m t : List (Nat × BitVec n)) (a : Nat) :
    Mem.read? (m ++ t) a = (Mem.read? m a).or (Mem.read? t a) := by
  induction m with
  | nil => rfl
  | cons c m ih =>
    obtain ⟨e, w⟩ := c
    simp only [List.cons_append, Mem.read?]
    split
    · rfl
    · exact ih

theorem Mem.read?_endAddr_le (ha : Mem.endAddr m ≤ a) : Mem.read? m a = none := by
  induction m with
  | nil => rfl
  | cons c t ih =>
    obtain ⟨e, w⟩ := c
    simp only [Mem.endAddr, Nat.max_le] at ha
    rw [Mem.read?, if_neg (by omega)]
    exact ih ha.2

/-- The byte appended stands at the old end. -/
theorem Mem.read?_append_same : Mem.read? (Mem.append m v) (Mem.endAddr m) = some v := by
  rw [Mem.append, Mem.read?_append, Mem.read?_endAddr_le le_rfl]
  simp [Mem.read?]

/-- Appending leaves every other address alone. -/
theorem Mem.read?_append_other (hb : b ≠ Mem.endAddr m) :
    Mem.read? (Mem.append m v) b = Mem.read? m b := by
  rw [Mem.append, Mem.read?_append]
  simp [Mem.read?, hb]

theorem Mem.endAddr_append_list (m t : List (Nat × BitVec n)) :
    Mem.endAddr (m ++ t) = max (Mem.endAddr m) (Mem.endAddr t) := by
  induction m with
  | nil => simp [Mem.endAddr]
  | cons c m ih => simp [Mem.endAddr, ih, Nat.max_assoc]

@[simp] theorem Mem.endAddr_append : Mem.endAddr (Mem.append m v) = Mem.endAddr m + 1 := by
  rw [Mem.append, Mem.endAddr_append_list]
  simp [Mem.endAddr]

@[simp] theorem Mem.append_values : (Mem.append m v).map Prod.snd = m.map Prod.snd ++ [v] := by
  simp [Mem.append]

/-! Consecutive values in a storage (`d = none`). -/

@[simp] theorem Mem.ofValues_values (vs : List (BitVec n)) (a : Nat) :
    (Mem.ofValues none a vs).map Prod.snd = vs := by
  induction vs generalizing a with
  | nil => rfl
  | cons v t ih => simp [Mem.ofValues, Mem.cell, ih]

theorem Mem.endAddr_ofValues (vs : List (BitVec n)) (a : Nat) :
    Mem.endAddr (Mem.ofValues none a vs) = if vs = [] then 0 else a + vs.length := by
  induction vs generalizing a with
  | nil => rfl
  | cons v t ih =>
    simp only [Mem.ofValues, Mem.cell, reduceCtorEq, if_false, List.singleton_append, Mem.endAddr, ih,
      List.length_cons]
    split <;> simp_all
    omega

/-- Consecutive values read back through what an unlisted address reads as. -/
theorem Mem.getD_read?_ofValues (x : BitVec n) (vs : List (BitVec n)) (a b : Nat) :
    (Mem.read? (Mem.ofValues (some x) a vs) b).getD x =
      if a ≤ b then (vs[b - a]?).getD x else x := by
  induction vs generalizing a with
  | nil => simp [Mem.ofValues, Mem.read?]
  | cons v t ih =>
    have hs (h : a < b) : b - a = b - (a + 1) + 1 := by omega
    have hc : (Mem.read? (Mem.ofValues (some x) a (v :: t)) b).getD x =
        if b = a then v else (Mem.read? (Mem.ofValues (some x) (a + 1) t) b).getD x := by
      simp only [Mem.ofValues, Mem.cell]
      split
      · rename_i hx
        cases hx
        by_cases h : b = a
        · rw [if_pos h, List.nil_append, ih, if_neg (by omega)]
        · rw [if_neg h, List.nil_append]
      · by_cases h : b = a <;> simp [Mem.read?, h]
    rw [hc, ih]
    rcases Nat.lt_trichotomy a b with h | h | h
    · rw [if_neg (by omega), if_pos (by omega), if_pos (by omega), hs h, List.getElem?_cons_succ]
    · simp [h]
    · rw [if_neg (by omega), if_neg (by omega), if_neg (by omega)]

theorem Mem.read?_ofValues (vs : List (BitVec n)) (a b : Nat) :
    Mem.read? (Mem.ofValues none a vs) b = if a ≤ b then vs[b - a]? else none := by
  induction vs generalizing a with
  | nil => simp [Mem.ofValues, Mem.read?]
  | cons v t ih =>
    simp only [Mem.ofValues, Mem.cell, reduceCtorEq, if_false, List.singleton_append, Mem.read?, ih]
    by_cases h : b = a
    · simp [h]
    · rw [if_neg h]
      by_cases h' : a ≤ b
      · have hs : b - a = b - (a + 1) + 1 := by omega
        rw [if_pos (by omega), if_pos h', hs, List.getElem?_cons_succ]
      · rw [if_neg (by omega), if_neg h']

end Sys2Proof.Machine
end

