-- ==== Sys2Proof/Laws/State.lean ====
section
/-! SUPPORT. One lemma per field per register update. -/

namespace Sys2Proof.Machine

variable (s : State)

@[simp] theorem State.setFmt_fmt (c : FmtCode) : (s.setFmt c).fmt = c := rfl
@[simp] theorem State.setFmt_phase (c : FmtCode) : (s.setFmt c).phase = s.phase := rfl
@[simp] theorem State.setFmt_errcode (c : FmtCode) : (s.setFmt c).errcode = s.errcode := rfl
@[simp] theorem State.setFmt_width (c : FmtCode) : (s.setFmt c).width = s.width := rfl
@[simp] theorem State.setFmt_height (c : FmtCode) : (s.setFmt c).height = s.height := rfl
@[simp] theorem State.setFmt_row (c : FmtCode) : (s.setFmt c).row = s.row := rfl
@[simp] theorem State.setFmt_col (c : FmtCode) : (s.setFmt c).col = s.col := rfl
@[simp] theorem State.setFmt_idx (c : FmtCode) : (s.setFmt c).idx = s.idx := rfl
@[simp] theorem State.setFmt_bcnt (c : FmtCode) : (s.setFmt c).bcnt = s.bcnt := rfl
@[simp] theorem State.setFmt_acc (c : FmtCode) : (s.setFmt c).acc = s.acc := rfl
@[simp] theorem State.setFmt_pend (c : FmtCode) : (s.setFmt c).pend = s.pend := rfl
@[simp] theorem State.setFmt_px (c : FmtCode) : (s.setFmt c).px = s.px := rfl
@[simp] theorem State.setFmt_sum (c : FmtCode) : (s.setFmt c).sum = s.sum := rfl
@[simp] theorem State.setFmt_int (c : FmtCode) : (s.setFmt c).int = s.int := rfl
@[simp] theorem State.setFmt_a1 (c : FmtCode) : (s.setFmt c).a1 = s.a1 := rfl
@[simp] theorem State.setFmt_bg (c : FmtCode) : (s.setFmt c).bg = s.bg := rfl
@[simp] theorem State.setFmt_env (c : FmtCode) : (s.setFmt c).env = s.env := rfl

@[simp] theorem State.setPhase_fmt (p : Phase) : (s.setPhase p).fmt = s.fmt := rfl
@[simp] theorem State.setPhase_phase (p : Phase) : (s.setPhase p).phase = p := rfl
@[simp] theorem State.setPhase_errcode (p : Phase) : (s.setPhase p).errcode = s.errcode := rfl
@[simp] theorem State.setPhase_width (p : Phase) : (s.setPhase p).width = s.width := rfl
@[simp] theorem State.setPhase_height (p : Phase) : (s.setPhase p).height = s.height := rfl
@[simp] theorem State.setPhase_row (p : Phase) : (s.setPhase p).row = s.row := rfl
@[simp] theorem State.setPhase_col (p : Phase) : (s.setPhase p).col = s.col := rfl
@[simp] theorem State.setPhase_idx (p : Phase) : (s.setPhase p).idx = s.idx := rfl
@[simp] theorem State.setPhase_bcnt (p : Phase) : (s.setPhase p).bcnt = s.bcnt := rfl
@[simp] theorem State.setPhase_acc (p : Phase) : (s.setPhase p).acc = s.acc := rfl
@[simp] theorem State.setPhase_pend (p : Phase) : (s.setPhase p).pend = s.pend := rfl
@[simp] theorem State.setPhase_px (p : Phase) : (s.setPhase p).px = s.px := rfl
@[simp] theorem State.setPhase_sum (p : Phase) : (s.setPhase p).sum = s.sum := rfl
@[simp] theorem State.setPhase_int (p : Phase) : (s.setPhase p).int = s.int := rfl
@[simp] theorem State.setPhase_a1 (p : Phase) : (s.setPhase p).a1 = s.a1 := rfl
@[simp] theorem State.setPhase_bg (p : Phase) : (s.setPhase p).bg = s.bg := rfl
@[simp] theorem State.setPhase_env (p : Phase) : (s.setPhase p).env = s.env := rfl

@[simp] theorem State.setDims_fmt (w h : Nat) : (s.setDims w h).fmt = s.fmt := rfl
@[simp] theorem State.setDims_phase (w h : Nat) : (s.setDims w h).phase = s.phase := rfl
@[simp] theorem State.setDims_errcode (w h : Nat) : (s.setDims w h).errcode = s.errcode := rfl
@[simp] theorem State.setDims_width (w h : Nat) : (s.setDims w h).width = w := rfl
@[simp] theorem State.setDims_height (w h : Nat) : (s.setDims w h).height = h := rfl
@[simp] theorem State.setDims_row (w h : Nat) : (s.setDims w h).row = s.row := rfl
@[simp] theorem State.setDims_col (w h : Nat) : (s.setDims w h).col = s.col := rfl
@[simp] theorem State.setDims_idx (w h : Nat) : (s.setDims w h).idx = s.idx := rfl
@[simp] theorem State.setDims_bcnt (w h : Nat) : (s.setDims w h).bcnt = s.bcnt := rfl
@[simp] theorem State.setDims_acc (w h : Nat) : (s.setDims w h).acc = s.acc := rfl
@[simp] theorem State.setDims_pend (w h : Nat) : (s.setDims w h).pend = s.pend := rfl
@[simp] theorem State.setDims_px (w h : Nat) : (s.setDims w h).px = s.px := rfl
@[simp] theorem State.setDims_sum (w h : Nat) : (s.setDims w h).sum = s.sum := rfl
@[simp] theorem State.setDims_int (w h : Nat) : (s.setDims w h).int = s.int := rfl
@[simp] theorem State.setDims_a1 (w h : Nat) : (s.setDims w h).a1 = s.a1 := rfl
@[simp] theorem State.setDims_bg (w h : Nat) : (s.setDims w h).bg = s.bg := rfl
@[simp] theorem State.setDims_env (w h : Nat) : (s.setDims w h).env = s.env := rfl

@[simp] theorem State.latchPx_fmt (p : Sample) : (s.latchPx p).fmt = s.fmt := rfl
@[simp] theorem State.latchPx_phase (p : Sample) : (s.latchPx p).phase = s.phase := rfl
@[simp] theorem State.latchPx_errcode (p : Sample) : (s.latchPx p).errcode = s.errcode := rfl
@[simp] theorem State.latchPx_width (p : Sample) : (s.latchPx p).width = s.width := rfl
@[simp] theorem State.latchPx_height (p : Sample) : (s.latchPx p).height = s.height := rfl
@[simp] theorem State.latchPx_row (p : Sample) : (s.latchPx p).row = s.row := rfl
@[simp] theorem State.latchPx_col (p : Sample) : (s.latchPx p).col = s.col := rfl
@[simp] theorem State.latchPx_idx (p : Sample) : (s.latchPx p).idx = s.idx := rfl
@[simp] theorem State.latchPx_bcnt (p : Sample) : (s.latchPx p).bcnt = s.bcnt := rfl
@[simp] theorem State.latchPx_acc (p : Sample) : (s.latchPx p).acc = s.acc := rfl
@[simp] theorem State.latchPx_pend (p : Sample) : (s.latchPx p).pend = s.pend := rfl
@[simp] theorem State.latchPx_px (p : Sample) : (s.latchPx p).px = p := rfl
@[simp] theorem State.latchPx_sum (p : Sample) : (s.latchPx p).sum = s.sum := rfl
@[simp] theorem State.latchPx_int (p : Sample) : (s.latchPx p).int = s.int := rfl
@[simp] theorem State.latchPx_a1 (p : Sample) : (s.latchPx p).a1 = s.a1 := rfl
@[simp] theorem State.latchPx_bg (p : Sample) : (s.latchPx p).bg = s.bg := rfl
@[simp] theorem State.latchPx_env (p : Sample) : (s.latchPx p).env = s.env := rfl

@[simp] theorem State.setIntensity_fmt (a : BitVec 10) (b : Byte) : (s.setIntensity a b).fmt = s.fmt := rfl
@[simp] theorem State.setIntensity_phase (a : BitVec 10) (b : Byte) : (s.setIntensity a b).phase = s.phase := rfl
@[simp] theorem State.setIntensity_errcode (a : BitVec 10) (b : Byte) : (s.setIntensity a b).errcode = s.errcode := rfl
@[simp] theorem State.setIntensity_width (a : BitVec 10) (b : Byte) : (s.setIntensity a b).width = s.width := rfl
@[simp] theorem State.setIntensity_height (a : BitVec 10) (b : Byte) : (s.setIntensity a b).height = s.height := rfl
@[simp] theorem State.setIntensity_row (a : BitVec 10) (b : Byte) : (s.setIntensity a b).row = s.row := rfl
@[simp] theorem State.setIntensity_col (a : BitVec 10) (b : Byte) : (s.setIntensity a b).col = s.col := rfl
@[simp] theorem State.setIntensity_idx (a : BitVec 10) (b : Byte) : (s.setIntensity a b).idx = s.idx := rfl
@[simp] theorem State.setIntensity_bcnt (a : BitVec 10) (b : Byte) : (s.setIntensity a b).bcnt = s.bcnt := rfl
@[simp] theorem State.setIntensity_acc (a : BitVec 10) (b : Byte) : (s.setIntensity a b).acc = s.acc := rfl
@[simp] theorem State.setIntensity_pend (a : BitVec 10) (b : Byte) : (s.setIntensity a b).pend = s.pend := rfl
@[simp] theorem State.setIntensity_px (a : BitVec 10) (b : Byte) : (s.setIntensity a b).px = s.px := rfl
@[simp] theorem State.setIntensity_sum (a : BitVec 10) (b : Byte) : (s.setIntensity a b).sum = a := rfl
@[simp] theorem State.setIntensity_int (a : BitVec 10) (b : Byte) : (s.setIntensity a b).int = b := rfl
@[simp] theorem State.setIntensity_a1 (a : BitVec 10) (b : Byte) : (s.setIntensity a b).a1 = s.a1 := rfl
@[simp] theorem State.setIntensity_bg (a : BitVec 10) (b : Byte) : (s.setIntensity a b).bg = s.bg := rfl
@[simp] theorem State.setIntensity_env (a : BitVec 10) (b : Byte) : (s.setIntensity a b).env = s.env := rfl

@[simp] theorem State.setA1_fmt (b : BitVec 1) : (s.setA1 b).fmt = s.fmt := rfl
@[simp] theorem State.setA1_phase (b : BitVec 1) : (s.setA1 b).phase = s.phase := rfl
@[simp] theorem State.setA1_errcode (b : BitVec 1) : (s.setA1 b).errcode = s.errcode := rfl
@[simp] theorem State.setA1_width (b : BitVec 1) : (s.setA1 b).width = s.width := rfl
@[simp] theorem State.setA1_height (b : BitVec 1) : (s.setA1 b).height = s.height := rfl
@[simp] theorem State.setA1_row (b : BitVec 1) : (s.setA1 b).row = s.row := rfl
@[simp] theorem State.setA1_col (b : BitVec 1) : (s.setA1 b).col = s.col := rfl
@[simp] theorem State.setA1_idx (b : BitVec 1) : (s.setA1 b).idx = s.idx := rfl
@[simp] theorem State.setA1_bcnt (b : BitVec 1) : (s.setA1 b).bcnt = s.bcnt := rfl
@[simp] theorem State.setA1_acc (b : BitVec 1) : (s.setA1 b).acc = s.acc := rfl
@[simp] theorem State.setA1_pend (b : BitVec 1) : (s.setA1 b).pend = s.pend := rfl
@[simp] theorem State.setA1_px (b : BitVec 1) : (s.setA1 b).px = s.px := rfl
@[simp] theorem State.setA1_sum (b : BitVec 1) : (s.setA1 b).sum = s.sum := rfl
@[simp] theorem State.setA1_int (b : BitVec 1) : (s.setA1 b).int = s.int := rfl
@[simp] theorem State.setA1_a1 (b : BitVec 1) : (s.setA1 b).a1 = b := rfl
@[simp] theorem State.setA1_bg (b : BitVec 1) : (s.setA1 b).bg = s.bg := rfl
@[simp] theorem State.setA1_env (b : BitVec 1) : (s.setA1 b).env = s.env := rfl

@[simp] theorem State.setBg_fmt (g : Group) : (s.setBg g).fmt = s.fmt := rfl
@[simp] theorem State.setBg_phase (g : Group) : (s.setBg g).phase = s.phase := rfl
@[simp] theorem State.setBg_errcode (g : Group) : (s.setBg g).errcode = s.errcode := rfl
@[simp] theorem State.setBg_width (g : Group) : (s.setBg g).width = s.width := rfl
@[simp] theorem State.setBg_height (g : Group) : (s.setBg g).height = s.height := rfl
@[simp] theorem State.setBg_row (g : Group) : (s.setBg g).row = s.row := rfl
@[simp] theorem State.setBg_col (g : Group) : (s.setBg g).col = s.col := rfl
@[simp] theorem State.setBg_idx (g : Group) : (s.setBg g).idx = s.idx := rfl
@[simp] theorem State.setBg_bcnt (g : Group) : (s.setBg g).bcnt = s.bcnt := rfl
@[simp] theorem State.setBg_acc (g : Group) : (s.setBg g).acc = s.acc := rfl
@[simp] theorem State.setBg_pend (g : Group) : (s.setBg g).pend = s.pend := rfl
@[simp] theorem State.setBg_px (g : Group) : (s.setBg g).px = s.px := rfl
@[simp] theorem State.setBg_sum (g : Group) : (s.setBg g).sum = s.sum := rfl
@[simp] theorem State.setBg_int (g : Group) : (s.setBg g).int = s.int := rfl
@[simp] theorem State.setBg_a1 (g : Group) : (s.setBg g).a1 = s.a1 := rfl
@[simp] theorem State.setBg_bg (g : Group) : (s.setBg g).bg = g := rfl
@[simp] theorem State.setBg_env (g : Group) : (s.setBg g).env = s.env := rfl

@[simp] theorem State.setHeld_fmt (a : Byte) (b : Bool) : (s.setHeld a b).fmt = s.fmt := rfl
@[simp] theorem State.setHeld_phase (a : Byte) (b : Bool) : (s.setHeld a b).phase = s.phase := rfl
@[simp] theorem State.setHeld_errcode (a : Byte) (b : Bool) : (s.setHeld a b).errcode = s.errcode := rfl
@[simp] theorem State.setHeld_width (a : Byte) (b : Bool) : (s.setHeld a b).width = s.width := rfl
@[simp] theorem State.setHeld_height (a : Byte) (b : Bool) : (s.setHeld a b).height = s.height := rfl
@[simp] theorem State.setHeld_row (a : Byte) (b : Bool) : (s.setHeld a b).row = s.row := rfl
@[simp] theorem State.setHeld_col (a : Byte) (b : Bool) : (s.setHeld a b).col = s.col := rfl
@[simp] theorem State.setHeld_idx (a : Byte) (b : Bool) : (s.setHeld a b).idx = s.idx := rfl
@[simp] theorem State.setHeld_bcnt (a : Byte) (b : Bool) : (s.setHeld a b).bcnt = s.bcnt := rfl
@[simp] theorem State.setHeld_acc (a : Byte) (b : Bool) : (s.setHeld a b).acc = a := rfl
@[simp] theorem State.setHeld_pend (a : Byte) (b : Bool) : (s.setHeld a b).pend = b := rfl
@[simp] theorem State.setHeld_px (a : Byte) (b : Bool) : (s.setHeld a b).px = s.px := rfl
@[simp] theorem State.setHeld_sum (a : Byte) (b : Bool) : (s.setHeld a b).sum = s.sum := rfl
@[simp] theorem State.setHeld_int (a : Byte) (b : Bool) : (s.setHeld a b).int = s.int := rfl
@[simp] theorem State.setHeld_a1 (a : Byte) (b : Bool) : (s.setHeld a b).a1 = s.a1 := rfl
@[simp] theorem State.setHeld_bg (a : Byte) (b : Bool) : (s.setHeld a b).bg = s.bg := rfl
@[simp] theorem State.setHeld_env (a : Byte) (b : Bool) : (s.setHeld a b).env = s.env := rfl

@[simp] theorem State.countByte_fmt : (s.countByte).fmt = s.fmt := rfl
@[simp] theorem State.countByte_phase : (s.countByte).phase = s.phase := rfl
@[simp] theorem State.countByte_errcode : (s.countByte).errcode = s.errcode := rfl
@[simp] theorem State.countByte_width : (s.countByte).width = s.width := rfl
@[simp] theorem State.countByte_height : (s.countByte).height = s.height := rfl
@[simp] theorem State.countByte_row : (s.countByte).row = s.row := rfl
@[simp] theorem State.countByte_col : (s.countByte).col = s.col := rfl
@[simp] theorem State.countByte_idx : (s.countByte).idx = s.idx := rfl
@[simp] theorem State.countByte_bcnt : (s.countByte).bcnt = s.bcnt + 1 := rfl
@[simp] theorem State.countByte_acc : (s.countByte).acc = s.acc := rfl
@[simp] theorem State.countByte_pend : (s.countByte).pend = s.pend := rfl
@[simp] theorem State.countByte_px : (s.countByte).px = s.px := rfl
@[simp] theorem State.countByte_sum : (s.countByte).sum = s.sum := rfl
@[simp] theorem State.countByte_int : (s.countByte).int = s.int := rfl
@[simp] theorem State.countByte_a1 : (s.countByte).a1 = s.a1 := rfl
@[simp] theorem State.countByte_bg : (s.countByte).bg = s.bg := rfl
@[simp] theorem State.countByte_env : (s.countByte).env = s.env := rfl

@[simp] theorem State.setEnv_fmt (e : Env) : (s.setEnv e).fmt = s.fmt := rfl
@[simp] theorem State.setEnv_phase (e : Env) : (s.setEnv e).phase = s.phase := rfl
@[simp] theorem State.setEnv_errcode (e : Env) : (s.setEnv e).errcode = s.errcode := rfl
@[simp] theorem State.setEnv_width (e : Env) : (s.setEnv e).width = s.width := rfl
@[simp] theorem State.setEnv_height (e : Env) : (s.setEnv e).height = s.height := rfl
@[simp] theorem State.setEnv_row (e : Env) : (s.setEnv e).row = s.row := rfl
@[simp] theorem State.setEnv_col (e : Env) : (s.setEnv e).col = s.col := rfl
@[simp] theorem State.setEnv_idx (e : Env) : (s.setEnv e).idx = s.idx := rfl
@[simp] theorem State.setEnv_bcnt (e : Env) : (s.setEnv e).bcnt = s.bcnt := rfl
@[simp] theorem State.setEnv_acc (e : Env) : (s.setEnv e).acc = s.acc := rfl
@[simp] theorem State.setEnv_pend (e : Env) : (s.setEnv e).pend = s.pend := rfl
@[simp] theorem State.setEnv_px (e : Env) : (s.setEnv e).px = s.px := rfl
@[simp] theorem State.setEnv_sum (e : Env) : (s.setEnv e).sum = s.sum := rfl
@[simp] theorem State.setEnv_int (e : Env) : (s.setEnv e).int = s.int := rfl
@[simp] theorem State.setEnv_a1 (e : Env) : (s.setEnv e).a1 = s.a1 := rfl
@[simp] theorem State.setEnv_bg (e : Env) : (s.setEnv e).bg = s.bg := rfl
@[simp] theorem State.setEnv_env (e : Env) : (s.setEnv e).env = e := rfl

@[simp] theorem State.raise_fmt (e : ErrorKind) : (s.raise e).fmt = s.fmt := rfl
@[simp] theorem State.raise_phase (e : ErrorKind) : (s.raise e).phase = .err := rfl
@[simp] theorem State.raise_errcode (e : ErrorKind) : (s.raise e).errcode = errorCode e := rfl
@[simp] theorem State.raise_width (e : ErrorKind) : (s.raise e).width = s.width := rfl
@[simp] theorem State.raise_height (e : ErrorKind) : (s.raise e).height = s.height := rfl
@[simp] theorem State.raise_row (e : ErrorKind) : (s.raise e).row = s.row := rfl
@[simp] theorem State.raise_col (e : ErrorKind) : (s.raise e).col = s.col := rfl
@[simp] theorem State.raise_idx (e : ErrorKind) : (s.raise e).idx = s.idx := rfl
@[simp] theorem State.raise_bcnt (e : ErrorKind) : (s.raise e).bcnt = s.bcnt := rfl
@[simp] theorem State.raise_acc (e : ErrorKind) : (s.raise e).acc = s.acc := rfl
@[simp] theorem State.raise_pend (e : ErrorKind) : (s.raise e).pend = s.pend := rfl
@[simp] theorem State.raise_px (e : ErrorKind) : (s.raise e).px = s.px := rfl
@[simp] theorem State.raise_sum (e : ErrorKind) : (s.raise e).sum = s.sum := rfl
@[simp] theorem State.raise_int (e : ErrorKind) : (s.raise e).int = s.int := rfl
@[simp] theorem State.raise_a1 (e : ErrorKind) : (s.raise e).a1 = s.a1 := rfl
@[simp] theorem State.raise_bg (e : ErrorKind) : (s.raise e).bg = s.bg := rfl
@[simp] theorem State.raise_env (e : ErrorKind) : (s.raise e).env = s.env := rfl

@[simp] theorem State.driveIntensity_fmt : (s.driveIntensity).fmt = s.fmt := rfl
@[simp] theorem State.driveIntensity_phase : (s.driveIntensity).phase = s.phase := rfl
@[simp] theorem State.driveIntensity_errcode : (s.driveIntensity).errcode = s.errcode := rfl
@[simp] theorem State.driveIntensity_width : (s.driveIntensity).width = s.width := rfl
@[simp] theorem State.driveIntensity_height : (s.driveIntensity).height = s.height := rfl
@[simp] theorem State.driveIntensity_row : (s.driveIntensity).row = s.row := rfl
@[simp] theorem State.driveIntensity_col : (s.driveIntensity).col = s.col := rfl
@[simp] theorem State.driveIntensity_idx : (s.driveIntensity).idx = s.idx := rfl
@[simp] theorem State.driveIntensity_bcnt : (s.driveIntensity).bcnt = s.bcnt := rfl
@[simp] theorem State.driveIntensity_acc : (s.driveIntensity).acc = s.acc := rfl
@[simp] theorem State.driveIntensity_pend : (s.driveIntensity).pend = s.pend := rfl
@[simp] theorem State.driveIntensity_px : (s.driveIntensity).px = s.px := rfl
@[simp] theorem State.driveIntensity_sum : (s.driveIntensity).sum = s.px.colourSum := rfl
@[simp] theorem State.driveIntensity_int : (s.driveIntensity).int = intensityOf s.px.colourSum := rfl
@[simp] theorem State.driveIntensity_a1 : (s.driveIntensity).a1 = s.a1 := rfl
@[simp] theorem State.driveIntensity_bg : (s.driveIntensity).bg = s.bg := rfl
@[simp] theorem State.driveIntensity_env : (s.driveIntensity).env = s.env := rfl

@[simp] theorem State.driveA1_fmt : (s.driveA1).fmt = s.fmt := rfl
@[simp] theorem State.driveA1_phase : (s.driveA1).phase = s.phase := rfl
@[simp] theorem State.driveA1_errcode : (s.driveA1).errcode = s.errcode := rfl
@[simp] theorem State.driveA1_width : (s.driveA1).width = s.width := rfl
@[simp] theorem State.driveA1_height : (s.driveA1).height = s.height := rfl
@[simp] theorem State.driveA1_row : (s.driveA1).row = s.row := rfl
@[simp] theorem State.driveA1_col : (s.driveA1).col = s.col := rfl
@[simp] theorem State.driveA1_idx : (s.driveA1).idx = s.idx := rfl
@[simp] theorem State.driveA1_bcnt : (s.driveA1).bcnt = s.bcnt := rfl
@[simp] theorem State.driveA1_acc : (s.driveA1).acc = s.acc := rfl
@[simp] theorem State.driveA1_pend : (s.driveA1).pend = s.pend := rfl
@[simp] theorem State.driveA1_px : (s.driveA1).px = s.px := rfl
@[simp] theorem State.driveA1_sum : (s.driveA1).sum = s.sum := rfl
@[simp] theorem State.driveA1_int : (s.driveA1).int = s.int := rfl
@[simp] theorem State.driveA1_a1 : (s.driveA1).a1 = s.px.alphaBit := rfl
@[simp] theorem State.driveA1_bg : (s.driveA1).bg = s.bg := rfl
@[simp] theorem State.driveA1_env : (s.driveA1).env = s.env := rfl

@[simp] theorem State.beginRun_fmt : (s.beginRun).fmt = s.fmt := rfl
@[simp] theorem State.beginRun_phase : (s.beginRun).phase = .check := rfl
@[simp] theorem State.beginRun_errcode : (s.beginRun).errcode = 0 := rfl
@[simp] theorem State.beginRun_width : (s.beginRun).width = s.width := rfl
@[simp] theorem State.beginRun_height : (s.beginRun).height = s.height := rfl
@[simp] theorem State.beginRun_row : (s.beginRun).row = 0 := rfl
@[simp] theorem State.beginRun_col : (s.beginRun).col = 0 := rfl
@[simp] theorem State.beginRun_idx : (s.beginRun).idx = 0 := rfl
@[simp] theorem State.beginRun_bcnt : (s.beginRun).bcnt = 0 := rfl
@[simp] theorem State.beginRun_acc : (s.beginRun).acc = 0 := rfl
@[simp] theorem State.beginRun_pend : (s.beginRun).pend = false := rfl
@[simp] theorem State.beginRun_px : (s.beginRun).px = s.px := rfl
@[simp] theorem State.beginRun_sum : (s.beginRun).sum = s.sum := rfl
@[simp] theorem State.beginRun_int : (s.beginRun).int = s.int := rfl
@[simp] theorem State.beginRun_a1 : (s.beginRun).a1 = s.a1 := rfl
@[simp] theorem State.beginRun_bg : (s.beginRun).bg = s.bg := rfl
@[simp] theorem State.beginRun_env : (s.beginRun).env = { s.env with events := [] } := rfl

@[simp] theorem State.hostRead_fmt (n : Nat) : (s.hostRead n).fmt = s.fmt := rfl
@[simp] theorem State.hostRead_phase (n : Nat) : (s.hostRead n).phase = s.phase := rfl
@[simp] theorem State.hostRead_errcode (n : Nat) : (s.hostRead n).errcode = s.errcode := rfl
@[simp] theorem State.hostRead_width (n : Nat) : (s.hostRead n).width = s.width := rfl
@[simp] theorem State.hostRead_height (n : Nat) : (s.hostRead n).height = s.height := rfl
@[simp] theorem State.hostRead_row (n : Nat) : (s.hostRead n).row = s.row := rfl
@[simp] theorem State.hostRead_col (n : Nat) : (s.hostRead n).col = s.col := rfl
@[simp] theorem State.hostRead_idx (n : Nat) : (s.hostRead n).idx = s.idx := rfl
@[simp] theorem State.hostRead_bcnt (n : Nat) : (s.hostRead n).bcnt = s.bcnt := rfl
@[simp] theorem State.hostRead_acc (n : Nat) : (s.hostRead n).acc = s.acc := rfl
@[simp] theorem State.hostRead_pend (n : Nat) : (s.hostRead n).pend = s.pend := rfl
@[simp] theorem State.hostRead_px (n : Nat) : (s.hostRead n).px = s.px := rfl
@[simp] theorem State.hostRead_sum (n : Nat) : (s.hostRead n).sum = s.sum := rfl
@[simp] theorem State.hostRead_int (n : Nat) : (s.hostRead n).int = s.int := rfl
@[simp] theorem State.hostRead_a1 (n : Nat) : (s.hostRead n).a1 = s.a1 := rfl
@[simp] theorem State.hostRead_bg (n : Nat) : (s.hostRead n).bg = s.bg := rfl
@[simp] theorem State.hostRead_env (n : Nat) : (s.hostRead n).env = { s.env with replies := s.env.replies ++ [(n, s.readReg n)] } := rfl

@[simp] theorem State.presentSink_fmt (l : List Byte) : (s.presentSink l).fmt = s.fmt := rfl
@[simp] theorem State.presentSink_phase (l : List Byte) : (s.presentSink l).phase = s.phase := rfl
@[simp] theorem State.presentSink_errcode (l : List Byte) : (s.presentSink l).errcode = s.errcode := rfl
@[simp] theorem State.presentSink_width (l : List Byte) : (s.presentSink l).width = s.width := rfl
@[simp] theorem State.presentSink_height (l : List Byte) : (s.presentSink l).height = s.height := rfl
@[simp] theorem State.presentSink_row (l : List Byte) : (s.presentSink l).row = s.row := rfl
@[simp] theorem State.presentSink_col (l : List Byte) : (s.presentSink l).col = s.col := rfl
@[simp] theorem State.presentSink_idx (l : List Byte) : (s.presentSink l).idx = s.idx := rfl
@[simp] theorem State.presentSink_bcnt (l : List Byte) : (s.presentSink l).bcnt = s.bcnt := rfl
@[simp] theorem State.presentSink_acc (l : List Byte) : (s.presentSink l).acc = s.acc := rfl
@[simp] theorem State.presentSink_pend (l : List Byte) : (s.presentSink l).pend = s.pend := rfl
@[simp] theorem State.presentSink_px (l : List Byte) : (s.presentSink l).px = s.px := rfl
@[simp] theorem State.presentSink_sum (l : List Byte) : (s.presentSink l).sum = s.sum := rfl
@[simp] theorem State.presentSink_int (l : List Byte) : (s.presentSink l).int = s.int := rfl
@[simp] theorem State.presentSink_a1 (l : List Byte) : (s.presentSink l).a1 = s.a1 := rfl
@[simp] theorem State.presentSink_bg (l : List Byte) : (s.presentSink l).bg = s.bg := rfl
@[simp] theorem State.presentSink_env (l : List Byte) : (s.presentSink l).env = { s.env with snk := Mem.ofValues none 0 l } := rfl

/-! The iterator's advance (R92): `IDX` counts on, `ROW` and `COL` move, nothing else changes. -/

@[simp] theorem State.advance_fmt : s.advance.fmt = s.fmt := by
  unfold State.advance; split <;> rfl
@[simp] theorem State.advance_phase : s.advance.phase = s.phase := by
  unfold State.advance; split <;> rfl
@[simp] theorem State.advance_errcode : s.advance.errcode = s.errcode := by
  unfold State.advance; split <;> rfl
@[simp] theorem State.advance_width : s.advance.width = s.width := by
  unfold State.advance; split <;> rfl
@[simp] theorem State.advance_height : s.advance.height = s.height := by
  unfold State.advance; split <;> rfl
@[simp] theorem State.advance_idx : s.advance.idx = s.idx + 1 := by
  unfold State.advance; split <;> rfl
@[simp] theorem State.advance_bcnt : s.advance.bcnt = s.bcnt := by
  unfold State.advance; split <;> rfl
@[simp] theorem State.advance_acc : s.advance.acc = s.acc := by
  unfold State.advance; split <;> rfl
@[simp] theorem State.advance_pend : s.advance.pend = s.pend := by
  unfold State.advance; split <;> rfl
@[simp] theorem State.advance_px : s.advance.px = s.px := by
  unfold State.advance; split <;> rfl
@[simp] theorem State.advance_sum : s.advance.sum = s.sum := by
  unfold State.advance; split <;> rfl
@[simp] theorem State.advance_int : s.advance.int = s.int := by
  unfold State.advance; split <;> rfl
@[simp] theorem State.advance_a1 : s.advance.a1 = s.a1 := by
  unfold State.advance; split <;> rfl
@[simp] theorem State.advance_bg : s.advance.bg = s.bg := by
  unfold State.advance; split <;> rfl
@[simp] theorem State.advance_env : s.advance.env = s.env := by
  unfold State.advance; split <;> rfl

theorem State.advance_row : s.advance.row =
    if s.col + 1 = s.width then s.row + 1 else s.row := by
  unfold State.advance; split <;> rfl

theorem State.advance_col : s.advance.col =
    if s.col + 1 = s.width then 0 else s.col + 1 := by
  unfold State.advance; split <;> rfl

/-! The views that updates leave alone. -/

@[simp] theorem State.setEnv_setEnv (e e' : Env) : (s.setEnv e).setEnv e' = s.setEnv e' := rfl

@[simp] theorem State.setEnv_self : s.setEnv s.env = s := rfl

@[simp] theorem State.setEnv_pixelCount (e : Env) : (s.setEnv e).pixelCount = s.pixelCount := rfl

@[simp] theorem State.setEnv_readReg (e : Env) (n : Nat) : (s.setEnv e).readReg n = s.readReg n := by
  unfold State.readReg; split <;> rfl

/-- The pixel count (R93). -/
@[simp] theorem State.pixelCount_eq : s.pixelCount = s.width * s.height := rfl

end Sys2Proof.Machine
end

