-- ==== Sys2Proof/Laws/Ops.lean ====
section
/-! SUPPORT. What each shared operation can do, said once: the ports, `put`, and one step. -/

namespace Sys2Proof.Machine

variable {s t : State} {b : Byte}

/-! The environment after an answer. -/

/-- The environment after an accepted write. -/
def Env.afterAccepted (e : Env) (b : Byte) (rest : List Bool) (n : Nat) : Env :=
  { e with
    writeAns := rest, draws := n, snk := Mem.append e.snk b, events := e.events ++ [.sinkWrite b true] }

/-- The environment after a refused write, with what the storage then holds. -/
def Env.afterRefused (e : Env) (b : Byte) (rest : List Bool) (n : Nat) (snk : List Host.Cell) : Env :=
  { e with writeAns := rest, draws := n, snk := snk, events := e.events ++ [.sinkWrite b false] }

/-! `put` (R90). -/

/-- Everything `put` can do: the byte is accepted and counted, or `SinkFailure` is raised and the byte
may or may not stand in the storage. -/
theorem put_cases (b : Byte) (s : State) :
    (∃ rest n, put b s = .goesOn ((s.setEnv (s.env.afterAccepted b rest n)).countByte)) ∨
    (∃ rest n snk, (snk = s.env.snk ∨ snk = Mem.append s.env.snk b) ∧
      put b s = .raised ((s.setEnv (s.env.afterRefused b rest n snk)).raise .sinkFailure)) := by
  obtain ⟨⟨a, rest, n⟩, hd⟩ : ∃ x, draw s.env.writeAns Config.freeWrite s.env.draws = x := ⟨_, rfl⟩
  cases a with
  | true => exact .inl ⟨rest, n, by unfold put State.sinkWrite; rw [hd]; rfl⟩
  | false =>
    refine .inr ⟨rest, n + 1, _, ?_, by unfold put State.sinkWrite; rw [hd]; rfl⟩
    split
    · exact .inr rfl
    · exact .inl rfl

/-- `put` when the next answer is `ok`. -/
theorem put_accepted {rest : List Bool} (h : s.env.writeAns = true :: rest) :
    put b s = .goesOn ((s.setEnv (s.env.afterAccepted b rest s.env.draws)).countByte) := by
  unfold put State.sinkWrite
  rw [h]
  rfl

/-- `put` when the next answer is `fail`. -/
theorem put_refused {rest : List Bool} (h : s.env.writeAns = false :: rest) :
    ∃ snk, (snk = s.env.snk ∨ snk = Mem.append s.env.snk b) ∧
      put b s = .raised
        ((s.setEnv (s.env.afterRefused b rest (s.env.draws + 1) snk)).raise .sinkFailure) := by
  unfold put State.sinkWrite
  rw [h]
  refine ⟨_, ?_, rfl⟩
  split
  · exact .inr rfl
  · exact .inl rfl

/-! The other requests. -/

/-- A free source is canonical. -/
theorem freeImage_wf {o : Option (Nat × Nat × List (Nat × SampleWord))} {img : Image}
    (h : freeImage o = some img) : Mem.wf (some 0) img.samples = true := by
  cases o with
  | none => cases h
  | some x =>
    obtain ⟨w, ht, ps⟩ := x
    cases h
    exact Mem.wf_ofPairs ps

/-- The source found next comes from the list or is free; a canonical environment finds a canonical
one and keeps canonical ones. -/
theorem Env.drawSource_cases (e : Env) :
    ∃ o src n, e.drawSource = (o, { e with sources := src, draws := n }) ∧
      (e.memWf = true →
        ({ e with sources := src, draws := n } : Env).memWf = true ∧
        ∀ img, o = some img → Mem.wf (some 0) img.samples = true) := by
  unfold Env.drawSource
  split
  · rename_i o rest h
    refine ⟨o, rest, e.draws, rfl, fun hw => ?_⟩
    simp only [Env.memWf, h, List.all_cons, Bool.and_eq_true] at hw ⊢
    refine ⟨⟨hw.1, hw.2.2⟩, fun img hi => ?_⟩
    subst hi
    exact hw.2.1
  · rename_i h
    refine ⟨freeImage (Config.freeSource e.draws), e.sources, e.draws + 1, rfl, fun hw => ?_⟩
    exact ⟨hw, fun img hi => freeImage_wf hi⟩

/-- Everything `SrcOpen` can do: the source is unavailable, or an image is opened. -/
theorem State.srcOpen_cases (s : State) :
    (∃ src n, s.srcOpen = (none, s.setEnv
      ({ s.env with sources := src, draws := n }.log (.srcOpen none)))) ∨
    (∃ src n img, s.srcOpen = (some (img.width, img.height), s.setEnv
      ({ s.env with sources := src, draws := n, image := img }.log
        (.srcOpen (some (img.width, img.height)))))) := by
  obtain ⟨o, src, n, hd, -⟩ := s.env.drawSource_cases
  unfold State.srcOpen
  rw [hd]
  cases o with
  | none => exact .inl ⟨src, n, rfl⟩
  | some img => exact .inr ⟨src, n, img, rfl⟩

/-- Opening a source keeps the memories canonical. -/
theorem State.srcOpen_memWf (h : s.env.memWf = true) : s.srcOpen.2.env.memWf = true := by
  obtain ⟨o, src, n, hd, hw⟩ := s.env.drawSource_cases
  obtain ⟨hm, hi⟩ := hw h
  unfold State.srcOpen
  rw [hd]
  cases o with
  | none => exact hm
  | some img =>
    simp only [Env.memWf, Bool.and_eq_true] at hm
    simp only [State.setEnv_env, Env.log, Env.memWf, Bool.and_eq_true]
    exact ⟨⟨hm.1.1, hi img rfl⟩, hm.2⟩

/-- `SrcRead` at an in-range location answers the image's word and records the request; elsewhere it
answers nothing. -/
theorem State.srcRead_eq (s : State) (row col : Nat) :
    s.srcRead row col =
      if row < s.env.image.height ∧ col < s.env.image.width then
        some (s.env.image.at (row * s.env.image.width + col),
          s.setEnv (s.env.log (.srcRead row col
            (s.env.image.at (row * s.env.image.width + col)))))
      else none := rfl

/-- `SinkReady` answers, is recorded, and changes nothing else but the answers left. -/
theorem State.sinkReady_cases (s : State) :
    ∃ a rest n, s.sinkReady =
      (a, s.setEnv ({ s.env with readyAns := rest, draws := n }.log (.sinkReady a))) := by
  obtain ⟨⟨a, rest, n⟩, hd⟩ : ∃ x, draw s.env.readyAns Config.freeReady s.env.draws = x := ⟨_, rfl⟩
  exact ⟨a, rest, n, by unfold State.sinkReady; rw [hd]⟩

/-- `SinkClose` answers, is recorded, and changes nothing else but the answers left. -/
theorem State.sinkClose_cases (s : State) :
    ∃ a rest n, s.sinkClose =
      (a, s.setEnv ({ s.env with closeAns := rest, draws := n }.log (.sinkClose a))) := by
  obtain ⟨⟨a, rest, n⟩, hd⟩ : ∃ x, draw s.env.closeAns Config.freeClose s.env.draws = x := ⟨_, rfl⟩
  exact ⟨a, rest, n, by unfold State.sinkClose; rw [hd]⟩

/-! Flow and outcomes. -/

@[simp] theorem Flow.goesOn_andThen (k : State → Flow) : (Flow.goesOn s).andThen k = k s := rfl

@[simp] theorem Flow.raised_andThen (k : State → Flow) : (Flow.raised s).andThen k = .raised s := rfl

@[simp] theorem Flow.goesOn_state : (Flow.goesOn s).state = s := rfl

@[simp] theorem Flow.raised_state : (Flow.raised s).state = s := rfl

theorem unlessRaised_next_of_ne (k : State → Host.Outcome State Fault Refusal) (h : s.phase ≠ .err) :
    unlessRaised (.next s) k = k s := if_neg h

theorem unlessRaised_next_of_err (k : State → Host.Outcome State Fault Refusal) (h : s.phase = .err) :
    unlessRaised (.next s) k = .next s := if_pos h

/-- No instruction stops the model. -/
theorem exec_next (i : Instr) (s : State) : ∃ t, exec i s = .next t := by
  cases i with
  | start => show ∃ t, execStart s = _; unfold execStart; split <;> exact ⟨_, rfl⟩
  | emit4 => show ∃ t, execEmit4 s = _; unfold execEmit4; split <;> exact ⟨_, rfl⟩
  | flush4 => show ∃ t, execFlush4 s = _; unfold execFlush4; split <;> exact ⟨_, rfl⟩
  | encRgba5551 => exact ⟨_, rfl⟩
  | encI4 => exact ⟨_, rfl⟩
  | encI8 => exact ⟨_, rfl⟩
  | encIa4 => exact ⟨_, rfl⟩
  | encIa8 => exact ⟨_, rfl⟩
  | reserved5 => exact ⟨_, rfl⟩
  | reserved6 => exact ⟨_, rfl⟩
  | reserved7 => exact ⟨_, rfl⟩
  | ctrlNone => exact ⟨_, rfl⟩
  | intens => exact ⟨_, rfl⟩
  | emit16 => exact ⟨_, rfl⟩
  | emit8 => exact ⟨_, rfl⟩
  | next => exact ⟨_, rfl⟩

/-! One step. -/

theorem step_noMoves (h : s.env.moves = []) : step s = coreStep s := by
  unfold step machineStep
  rw [h]

theorem step_move {m : Move} {rest : List Move} (h : s.env.moves = m :: rest) :
    step s = moveStep m (s.setEnv { s.env with moves := rest }) := by
  unfold step machineStep
  rw [h]

/-- A run goes on from where its first step ends. -/
theorem run_of_step (k : Nat) (h : step s = .next t) :
    Host.Core.run Sys2Proof.core (k + 1) s = Host.Core.run Sys2Proof.core k t := by
  have hs : Sys2Proof.core.step s = .next t := h
  simp only [Host.Core.run]
  rw [hs]

end Sys2Proof.Machine
end

