-- ==== Sys2Proof/Laws/Pack.lean ====
section
/-! SUPPORT. The small lemmas of the packing function: one more pixel, what is held, how many bytes
stand, and that bytes once out stay. -/

namespace Sys2Proof.Machine

variable (f : Format) (ps qs : List Sample) (p : Sample)

/-- Packing one pixel more. -/
theorem packing_append_one : packing f (ps ++ [p]) = (packing f ps).add f p := by
  simp [packing]

/-- A nibble is held exactly after an odd number of pixels of a 4-bit format (R104). -/
theorem packing_pend :
    (packing f ps).pend = (decide (f.widthClass = .w4) && decide (ps.length % 2 = 1)) := by
  induction ps using List.reverseRecOn with
  | nil => cases f <;> rfl
  | append_singleton ps p ih =>
    rw [packing_append_one, Packing.add]
    cases hc : f.widthClass with
    | w16 => simp [ih, hc]
    | w8 => simp [ih, hc]
    | w4 =>
      simp only [hc, decide_true, Bool.true_and] at ih
      dsimp only
      split <;> rename_i hp <;> simp_all <;> omega

/-- With no nibble held the accumulator is 0 (R104). -/
theorem packing_acc_of_not_pend (h : (packing f ps).pend = false) : (packing f ps).acc = 0 := by
  induction ps using List.reverseRecOn with
  | nil => rfl
  | append_singleton ps p ih =>
    rw [packing_append_one, Packing.add] at h ⊢
    cases hc : f.widthClass with
    | w16 => simp only [hc] at h ⊢; exact ih h
    | w8 => simp only [hc] at h ⊢; exact ih h
    | w4 =>
      simp only [hc] at h ⊢
      split at h
      · rename_i hp; rw [if_pos hp]
      · cases h

/-- A held nibble is the last pixel's group, in the high nibble (R104). -/
theorem packing_acc_of_pend (h : (packing f (ps ++ [p])).pend = true) :
    (packing f (ps ++ [p])).acc = groupNibble (enc f p) <<< 4 := by
  have hw := packing_pend f (ps ++ [p])
  have hq := packing_pend f ps
  rw [h] at hw
  simp only [Bool.true_eq, Bool.and_eq_true, decide_eq_true_eq, List.length_append,
    List.length_singleton] at hw
  rw [packing_append_one, Packing.add]
  simp only [hw.1]
  rw [if_neg]
  simp [hq]
  omega

/-- How many bytes stand after some pixels (R104). -/
theorem packing_out_length :
    (packing f ps).out.length =
      match f.widthClass with
      | .w16 => 2 * ps.length
      | .w8 => ps.length
      | .w4 => ps.length / 2 := by
  induction ps using List.reverseRecOn with
  | nil => cases f <;> rfl
  | append_singleton ps p ih =>
    have hp := packing_pend f ps
    rw [packing_append_one, Packing.add]
    cases hc : f.widthClass with
    | w16 => simp only [hc] at ih; simp [ih]; omega
    | w8 => simp only [hc] at ih; simp [ih]
    | w4 =>
      simp only [hc, decide_true, Bool.true_and] at ih hp
      dsimp only
      split <;> rename_i h <;> rw [hp] at h <;> simp at h <;> simp [ih] <;> omega

/-- Bytes once out stay. -/
theorem packing_out_mono : (packing f ps).out <+: (packing f (ps ++ qs)).out := by
  induction qs using List.reverseRecOn with
  | nil => simp
  | append_singleton qs q ih =>
    rw [← List.append_assoc, packing_append_one]
    refine ih.trans ?_
    unfold Packing.add
    cases f.widthClass with
    | w16 => simp
    | w8 => simp
    | w4 => dsimp only; split <;> simp

theorem packing_out_isPrefix_pack : (packing f ps).out <+: pack f ps := by
  unfold pack
  dsimp only
  split <;> simp

/-- What stands after the first pixels is a first part of the stream (R132). -/
theorem packing_take_isPrefix_pack (n : Nat) : (packing f (ps.take n)).out <+: pack f ps := by
  have h := packing_out_mono f (ps.take n) (ps.drop n)
  rw [List.take_append_drop] at h
  exact h.trans (packing_out_isPrefix_pack f ps)

/-! The pixels of an image. -/

@[simp] theorem Image.pixels_length (img : Image) : img.pixels.length = img.count := by
  simp [Image.pixels]

theorem Image.pixels_get? {img : Image} {i : Nat} (h : i < img.count) :
    img.pixels[i]? = some (Sample.ofWord (img.at i)) := by
  simp [Image.pixels, h]

theorem Image.take_pixels_succ {img : Image} {i : Nat} (h : i < img.count) :
    img.pixels.take (i + 1) = img.pixels.take i ++ [Sample.ofWord (img.at i)] := by
  rw [List.take_add_one, Image.pixels_get? h]
  rfl

theorem groupAt_pixels {img : Image} {i : Nat} (h : i < img.count) :
    groupAt f img.pixels i = enc f (Sample.ofWord (img.at i)) := by
  rw [groupAt, Image.pixels_get? h]

/-- No more than two bytes stand for each pixel (R21). -/
theorem packing_out_length_le : (packing f ps).out.length ≤ 2 * ps.length := by
  rw [packing_out_length]
  split <;> omega

/-! The bytes accepted. -/

/-- More history, more bytes. -/
theorem State.written_append {s t : State} {evs : List Event}
    (h : t.env.events = s.env.events ++ evs) :
    t.written = s.written ++ evs.filterMap Event.acceptedByte := by
  rw [State.written, h, List.filterMap_append]
  rfl

@[simp] theorem acceptedByte_append (l : List Event) (e : Event) :
    (l ++ [e]).filterMap Event.acceptedByte =
      l.filterMap Event.acceptedByte ++ e.acceptedByte.toList := by
  cases h : e.acceptedByte <;> simp [h]

end Sys2Proof.Machine
end

