-- ==== Sys2Proof/Laws/PerInstr.lean ====
section
/-! SUPPORT. Facts about every instruction as syntax, one lemma per constructor. -/

/-- Under a code that may select it, an instruction's encoding decodes to it. -/
def Sys2Proof.Laws.RoundTrip.Statement (i : Sys2Proof.Instr) : Prop :=
  ∀ c : Sys2Proof.FmtCode, i.wellFormed c = true →
    Sys2Proof.decode (Sys2Proof.encode c i) = .ok i

namespace Sys2Proof.Laws.RoundTrip

theorem encRgba5551 : Statement .encRgba5551 := by
  unfold Statement; decide

theorem encI4 : Statement .encI4 := by
  unfold Statement; decide

theorem encI8 : Statement .encI8 := by
  unfold Statement; decide

theorem encIa4 : Statement .encIa4 := by
  unfold Statement; decide

theorem encIa8 : Statement .encIa8 := by
  unfold Statement; decide

theorem reserved5 : Statement .reserved5 := by
  unfold Statement; decide

theorem reserved6 : Statement .reserved6 := by
  unfold Statement; decide

theorem reserved7 : Statement .reserved7 := by
  unfold Statement; decide

theorem start : Statement .start := by
  unfold Statement; decide

theorem ctrlNone : Statement .ctrlNone := by
  unfold Statement; decide

theorem intens : Statement .intens := by
  unfold Statement; decide

theorem emit16 : Statement .emit16 := by
  unfold Statement; decide

theorem emit8 : Statement .emit8 := by
  unfold Statement; decide

theorem emit4 : Statement .emit4 := by
  unfold Statement; decide

theorem flush4 : Statement .flush4 := by
  unfold Statement; decide

theorem next : Statement .next := by
  unfold Statement; decide

end Sys2Proof.Laws.RoundTrip
end

