-- ==== Sys2Proof/Laws/Step.lean ====
section
/-! SUPPORT. What one step of the core can do, said once per phase. -/

namespace Sys2Proof.Machine

/-- Emitting the bit-group `g` with `acc` and `pend` held writes the bytes `new` and then holds `acc'` and
`pend'` (R95 to R97). -/
def Emits (f : Format) (g : Group) (acc : Byte) (pend : Bool) (new : List Byte) (acc' : Byte)
    (pend' : Bool) : Prop :=
  match f.widthClass with
  | .w16 => new = [groupHigh g, groupLow g] ∧ acc' = acc ∧ pend' = pend
  | .w8 => new = [groupLow g] ∧ acc' = acc ∧ pend' = pend
  | .w4 =>
    (pend = true ∧ new = [acc ||| groupNibble g] ∧ acc' = 0 ∧ pend' = false) ∨
    (pend = false ∧ new = [] ∧ acc' = groupNibble g <<< 4 ∧ pend' = true)

/-- Emitting the bit-group `g` stops at the refused byte `b` after the accepted bytes `pre`. -/
def EmitStops (f : Format) (g : Group) (acc : Byte) (pend : Bool) (pre : List Byte) (b : Byte) : Prop :=
  match f.widthClass with
  | .w16 => (pre = [] ∧ b = groupHigh g) ∨ (pre = [groupHigh g] ∧ b = groupLow g)
  | .w8 => pre = [] ∧ b = groupLow g
  | .w4 => pend = true ∧ pre = [] ∧ b = acc ||| groupNibble g

/-- An environment that has answered writes: history, image and moves. -/
structure Env.Wrote (e e' : Env) (evs : List Event) : Prop where
  events : e'.events = e.events ++ evs
  image : e'.image = e.image
  moves : e'.moves = e.moves
  sources : e'.sources = e.sources

theorem Env.Wrote.trans {e e' e'' : Env} {l m : List Event} (h : e.Wrote e' l) (h' : e'.Wrote e'' m) :
    e.Wrote e'' (l ++ m) where
  events := by rw [h'.events, h.events, List.append_assoc]
  image := h'.image.trans h.image
  moves := h'.moves.trans h.moves
  sources := h'.sources.trans h.sources

/-- `put`, with what matters of the environment afterwards. -/
theorem put_wrote (b : Byte) (s : State) :
    (∃ e, put b s = .goesOn { s with bcnt := s.bcnt + 1, env := e } ∧
      s.env.Wrote e [.sinkWrite b true]) ∨
    (∃ e, put b s = .raised { s with errcode := errorCode .sinkFailure, phase := .err, env := e } ∧
      s.env.Wrote e [.sinkWrite b false]) := by
  rcases put_cases b s with ⟨r, n, h⟩ | ⟨r, n, k, -, h⟩
  · exact .inl ⟨_, h, rfl, rfl, rfl, rfl⟩
  · exact .inr ⟨_, h, rfl, rfl, rfl, rfl⟩

/-- The events of accepted bytes. -/
def acceptedWrites (bs : List Byte) : List Event := bs.map fun b => .sinkWrite b true

@[simp] theorem acceptedWrites_bytes (bs : List Byte) :
    (acceptedWrites bs).filterMap Event.acceptedByte = bs := by
  induction bs with
  | nil => rfl
  | cons b t ih => exact congrArg (b :: ·) ih

/-- Emitting a pixel's bit-group packs the pixel (R100). -/
theorem packing_of_emits {f : Format} {ps : List Sample} {p : Sample} {new : List Byte} {acc : Byte}
    {pend : Bool}
    (h : Emits f (enc f p) (packing f ps).acc (packing f ps).pend new acc pend) :
    packing f (ps ++ [p]) = { out := (packing f ps).out ++ new, acc := acc, pend := pend } := by
  rw [packing_append_one, Packing.add]
  unfold Emits at h
  cases hc : f.widthClass with
  | w16 => simp only [hc] at h ⊢; obtain ⟨rfl, rfl, rfl⟩ := h; rfl
  | w8 => simp only [hc] at h ⊢; obtain ⟨rfl, rfl, rfl⟩ := h; rfl
  | w4 =>
    simp only [hc] at h ⊢
    rcases h with ⟨h0, rfl, rfl, rfl⟩ | ⟨h0, rfl, rfl, rfl⟩
    · rw [if_pos h0]
    · rw [if_neg (by simp [h0]), List.append_nil]

/-- What was accepted before an emitter stopped is a first part of what packing the pixel gives (R132). -/
theorem isPrefix_of_emitStops {f : Format} {ps : List Sample} {p : Sample} {pre : List Byte} {b : Byte}
    (h : EmitStops f (enc f p) (packing f ps).acc (packing f ps).pend pre b) :
    (packing f ps).out ++ pre ++ [b] <+: (packing f (ps ++ [p])).out := by
  rw [packing_append_one, Packing.add]
  unfold EmitStops at h
  cases hc : f.widthClass with
  | w16 => simp only [hc] at h ⊢; rcases h with ⟨rfl, rfl⟩ | ⟨rfl, rfl⟩ <;> simp
  | w8 => simp only [hc] at h ⊢; obtain ⟨rfl, rfl⟩ := h; simp
  | w4 => simp only [hc] at h ⊢; obtain ⟨h0, rfl, rfl⟩ := h; simp [h0]

/-- Everything an emitter can do. -/
theorem exec_emitter_cases (f : Format) (s : State) :
    (∃ new acc pend e, Emits f s.bg s.acc s.pend new acc pend ∧ s.env.Wrote e (acceptedWrites new) ∧
      exec f.widthClass.emitter s = .next { s with
        bcnt := s.bcnt + new.length, acc := acc, pend := pend, env := e }) ∨
    (∃ pre b e, EmitStops f s.bg s.acc s.pend pre b ∧
      s.env.Wrote e (acceptedWrites pre ++ [.sinkWrite b false]) ∧
      exec f.widthClass.emitter s = .next { s with
        bcnt := s.bcnt + pre.length,
        errcode := errorCode .sinkFailure, phase := .err, env := e }) := by
  unfold Emits EmitStops
  cases f.widthClass with
  | w16 =>
    have hx : exec WidthClass.w16.emitter s =
      .next ((put (groupHigh s.bg) s).andThen (put (groupLow s.bg))).state := rfl
    rcases put_wrote (groupHigh s.bg) s with ⟨e, h, hw⟩ | ⟨e, h, hw⟩
    · rw [h, Flow.goesOn_andThen] at hx
      rcases put_wrote (groupLow s.bg) { s with bcnt := s.bcnt + 1, env := e } with
        ⟨e', h', hw'⟩ | ⟨e', h', hw'⟩
      · refine .inl ⟨_, s.acc, s.pend, e', ⟨rfl, rfl, rfl⟩, hw.trans hw', ?_⟩
        rw [hx, h']
        simp
      · refine .inr ⟨_, _, e', .inr ⟨rfl, rfl⟩, hw.trans hw', ?_⟩
        rw [hx, h']
        rfl
    · refine .inr ⟨_, _, e, .inl ⟨rfl, rfl⟩, hw, ?_⟩
      rw [hx, h]
      simp
  | w8 =>
    have hx : exec WidthClass.w8.emitter s = .next (put (groupLow s.bg) s).state := rfl
    rcases put_wrote (groupLow s.bg) s with ⟨e, h, hw⟩ | ⟨e, h, hw⟩
    · refine .inl ⟨_, s.acc, s.pend, e, ⟨rfl, rfl, rfl⟩, hw, ?_⟩
      rw [hx, h]
      rfl
    · refine .inr ⟨_, _, e, ⟨rfl, rfl⟩, hw, ?_⟩
      rw [hx, h]
      simp
  | w4 =>
    have hx : exec WidthClass.w4.emitter s = execEmit4 s := rfl
    rw [hx, execEmit4]
    cases hp : s.pend with
    | true =>
      rw [if_pos rfl]
      rcases put_wrote (s.acc ||| groupNibble s.bg) s with ⟨e, h, hw⟩ | ⟨e, h, hw⟩
      · refine .inl ⟨_, _, _, e, .inl ⟨rfl, rfl, rfl, rfl⟩, hw, ?_⟩
        rw [h]
        rfl
      · refine .inr ⟨_, _, e, ⟨rfl, rfl, rfl⟩, hw, ?_⟩
        rw [h]
        simp [hp]
    | false =>
      refine .inl ⟨[], _, _, s.env, .inr ⟨rfl, rfl, rfl, rfl⟩, ⟨by simp [acceptedWrites], rfl, rfl, rfl⟩, ?_⟩
      rw [if_neg Bool.false_ne_true]
      simp [State.setHeld]

/-- A format's encoder drives the bit-group `enc(format, PX)`. -/
theorem exec_encoder (f : Format) (s : State) :
    ∃ sum int a1, exec f.encoder s =
      .next { s with sum := sum, int := int, a1 := a1, bg := enc f s.px } := by
  cases f <;> exact ⟨_, _, _, rfl⟩

theorem code_of_formatOf {c : FmtCode} {f : Format} (h : formatOf c = some f) : c = f.code := by
  revert h
  cases f <;> revert c <;> decide

theorem pixelOps_of_formatOf {c : FmtCode} {f : Format} (h : formatOf c = some f) :
    pixelOps c = [f.encoder, f.widthClass.emitter, .next] := by
  rw [code_of_formatOf h]
  cases f <;> rfl

/-- Everything a `RUN` step can do with a format in `FMT` and a pixel left inside the image (R112). -/
theorem runStep_cases {s : State} {f : Format} (hp : s.phase = .run) (hf : formatOf s.fmt = some f)
    (hn : s.idx ≠ s.pixelCount) (hr : s.row < s.env.image.height)
    (hc : s.col < s.env.image.width) :
    ∃ w px sum int a1,
      w = s.env.image.at (s.row * s.env.image.width + s.col) ∧
      px = Sample.ofWord w ∧
      ((∃ new acc pend e, Emits f (enc f px) s.acc s.pend new acc pend ∧
        s.env.Wrote e (.srcRead s.row s.col w :: acceptedWrites new) ∧
        runStep s = .next (State.advance { s with
          px := px, sum := sum, int := int, a1 := a1, bg := enc f px,
          bcnt := s.bcnt + new.length, acc := acc, pend := pend, env := e })) ∨
      (∃ pre b e, EmitStops f (enc f px) s.acc s.pend pre b ∧
        s.env.Wrote e (.srcRead s.row s.col w :: (acceptedWrites pre ++ [.sinkWrite b false])) ∧
        runStep s = .next { s with
          px := px, sum := sum, int := int, a1 := a1, bg := enc f px,
          bcnt := s.bcnt + pre.length,
          errcode := errorCode .sinkFailure, phase := .err, env := e })) := by
  obtain ⟨w, hw⟩ : ∃ w, w = s.env.image.at (s.row * s.env.image.width + s.col) :=
    ⟨_, rfl⟩
  have h0 : runStep s = runOps [f.encoder, f.widthClass.emitter, .next]
      ((s.setEnv (s.env.log (.srcRead s.row s.col w))).latchPx (Sample.ofWord w)) := by
    unfold runStep
    rw [if_neg hn, State.srcRead_eq, if_pos ⟨hr, hc⟩, pixelOps_of_formatOf hf, ← hw]
  obtain ⟨sum, int, a1, he⟩ :=
    exec_encoder f ((s.setEnv (s.env.log (.srcRead s.row s.col w))).latchPx (Sample.ofWord w))
  have hread : s.env.Wrote (s.env.log (.srcRead s.row s.col w)) [.srcRead s.row s.col w] :=
    ⟨rfl, rfl, rfl, rfl⟩
  refine ⟨w, Sample.ofWord w, sum, int, a1, hw, rfl, ?_⟩
  rw [h0, runOps, he, unlessRaised_next_of_ne _ (by simp [hp]), runOps]
  rcases exec_emitter_cases f { s with
      px := Sample.ofWord w, sum := sum, int := int, a1 := a1, bg := enc f (Sample.ofWord w),
      env := s.env.log (.srcRead s.row s.col w) } with
    ⟨new, acc, pend, e, hem, hwr, hx⟩ | ⟨pre, b, e, hst, hwr, hx⟩
  · refine .inl ⟨new, acc, pend, e, hem, hread.trans hwr, ?_⟩
    refine (congrArg (unlessRaised · _) hx).trans ?_
    rw [unlessRaised_next_of_ne _ (by simp [hp]), runOps]
    exact unlessRaised_next_of_ne _ (by simp [hp])
  · refine .inr ⟨pre, b, e, hst, hread.trans hwr, ?_⟩
    exact congrArg (unlessRaised · _) hx

/-- Everything a `FLUSH` step can do (R113). -/
theorem flushStep_cases {s : State} (hp : s.phase = .flush) :
    (s.pend = false ∧ flushStep s = .next { s with phase := .close }) ∨
    (s.pend = true ∧ ∃ e, s.env.Wrote e [.sinkWrite s.acc true] ∧
      flushStep s = .next { s with
        phase := .close, acc := 0, pend := false, bcnt := s.bcnt + 1, env := e }) ∨
    (s.pend = true ∧ ∃ e, s.env.Wrote e [.sinkWrite s.acc false] ∧
      flushStep s = .next { s with
        errcode := errorCode .sinkFailure, phase := .err, env := e }) := by
  have hx : exec .flush4 s = execFlush4 s := rfl
  rw [flushStep, hx, execFlush4]
  cases hpd : s.pend with
  | false =>
    refine .inl ⟨rfl, ?_⟩
    rw [if_neg Bool.false_ne_true, unlessRaised_next_of_ne _ (by simp [hp])]
    simp [State.setPhase, hpd]
  | true =>
    rw [if_pos rfl]
    rcases put_wrote s.acc s with ⟨e, h, hw⟩ | ⟨e, h, hw⟩
    · refine .inr (.inl ⟨rfl, e, hw, ?_⟩)
      rw [h, Flow.goesOn_andThen, Flow.goesOn_state, unlessRaised_next_of_ne _ (by simp [hp])]
      rfl
    · refine .inr (.inr ⟨rfl, e, hw, ?_⟩)
      rw [h, Flow.raised_andThen, Flow.raised_state, unlessRaised_next_of_err _ rfl]
      simp [hpd]

/-- Everything a `CHECK` step can do (R111). -/
theorem checkStep_cases (s : State) :
    (formatOf s.fmt = none ∧ checkStep s = .next (s.raise .invalidFormat)) ∨
    (∃ f, formatOf s.fmt = some f ∧ ∃ e, s.env.Wrote { e with sources := s.env.sources } [.srcOpen none] ∧
      checkStep s = .next { s with
        errcode := errorCode .sourceUnavailable, phase := .err, env := e }) ∨
    (∃ f, formatOf s.fmt = some f ∧ ∃ e,
      e.events = s.env.events ++ [.srcOpen (some (e.image.width, e.image.height)), .sinkReady false] ∧
      e.moves = s.env.moves ∧
      checkStep s = .next { s with
        errcode := errorCode .sinkFailure, phase := .err,
        width := e.image.width, height := e.image.height, env := e }) ∨
    (∃ f, formatOf s.fmt = some f ∧ ∃ e,
      e.events = s.env.events ++ [.srcOpen (some (e.image.width, e.image.height)), .sinkReady true] ∧
      e.moves = s.env.moves ∧
      checkStep s = .next { s with
        phase := .run, width := e.image.width, height := e.image.height, env := e }) := by
  unfold checkStep
  cases hf : formatOf s.fmt with
  | none =>
    refine .inl ⟨rfl, ?_⟩
    have hd : decodeFmt s.fmt = .reserved5 ∨ decodeFmt s.fmt = .reserved6 ∨
        decodeFmt s.fmt = .reserved7 := by
      unfold decodeFmt
      rw [hf]
      dsimp only
      split
      · exact .inl rfl
      · split
        · exact .inr (.inl rfl)
        · exact .inr (.inr rfl)
    dsimp only
    rcases hd with hd | hd | hd <;> rw [hd] <;> rfl
  | some f =>
    refine .inr ?_
    dsimp only
    unfold openPorts
    rcases s.srcOpen_cases with ⟨src, n, h⟩ | ⟨src, n, img, h⟩
    · rw [h]
      refine .inl ⟨f, rfl, _, ?_, rfl⟩
      exact ⟨rfl, rfl, rfl, rfl⟩
    · rw [h]
      dsimp only
      obtain ⟨a, rdy, n', h'⟩ := State.sinkReady_cases
        ((s.setEnv ({ s.env with sources := src, draws := n, image := img }.log
          (.srcOpen (some (img.width, img.height))))).setDims img.width img.height)
      rw [h']
      let e (a : Bool) : Env :=
        ({ ({ s.env with sources := src, draws := n, image := img } : Env).log
            (.srcOpen (some (img.width, img.height))) with readyAns := rdy, draws := n' } : Env).log
          (.sinkReady a)
      cases a with
      | false =>
        exact .inr (.inl ⟨f, rfl, e false, List.append_assoc _ _ _, rfl, rfl⟩)
      | true =>
        exact .inr (.inr ⟨f, rfl, e true, List.append_assoc _ _ _, rfl, rfl⟩)

/-- Everything a `CLOSE` step can do (R114). -/
theorem closeStep_cases (s : State) :
    (∃ e, s.env.Wrote e [.sinkClose true] ∧ closeStep s = .next { s with phase := .done, env := e }) ∨
    (∃ e, s.env.Wrote e [.sinkClose false] ∧
      closeStep s = .next { s with errcode := errorCode .sinkFailure, phase := .err, env := e }) := by
  obtain ⟨a, rest, n, h⟩ := s.sinkClose_cases
  unfold closeStep
  rw [h]
  cases a with
  | false =>
    refine .inr ⟨_, ?_, rfl⟩
    exact ⟨rfl, rfl, rfl, rfl⟩
  | true =>
    refine .inl ⟨_, ?_, rfl⟩
    exact ⟨rfl, rfl, rfl, rfl⟩

end Sys2Proof.Machine
end

