-- ==== Sys2Proof/Tests/Slice0.lean ====
section
/-! SUPPORT. Tests whose expected results are the spec's own vectors (95_test_vectors.md) and words
written out from its encodings, and for each statement a state and operands that meet its hypotheses. -/

namespace Sys2Proof.Tests

open Sys2Proof Sys2Proof.Machine

/-! ### Helpers -/

/-- The outcome is a next state with this property. -/
def nextWith (o : Host.Outcome State Fault Refusal) (p : State → Bool) : Bool :=
  match o with
  | .next s => p s
  | .fault _ => false
  | .refused _ => false

/-- The reset state with a sample in `PX`. -/
def withPx (r g b a : Byte) : State := State.reset.latchPx { r := r, g := g, b := b, a := a }

/-- The reset state with a bit-group, held nibble and answers of the sink. -/
def withGroup (bg : Group) (acc : Byte) (pend : Bool) (answers : List Bool) : State :=
  ((State.reset.setBg bg).setHeld acc pend).setEnv { Env.initial with writeAns := answers }

/-- A state in a phase with a format code and an environment. -/
def inPhase (p : Phase) (c : FmtCode) (e : Env) : State :=
  ((State.reset.setPhase p).setFmt c).setEnv e

/-- A 2x1 image of the samples `(255,0,0,255)` and `(10,20,30,40)`. -/
def image2x1 : Image := Image.ofWords 2 1 [0xFF0000FF, 0x0A141E28]

/-- In `RUN` at `(0, 0)` of the 2x1 image, with two writes accepted. -/
def running (c : FmtCode) : State :=
  (inPhase .run c { Env.initial with image := image2x1, writeAns := [true, true] }).setDims 2 1

/-- In `FLUSH` or `CLOSE` after a 1x1 image of zeros in format `I8`, whose one byte was accepted. -/
def finished (p : Phase) : State :=
  { inPhase p 2 { Env.initial with
      image := Image.ofWords 1 1 [0], snk := [(0, 0)], closeAns := [true],
      events := historyUpTo .i8 (Image.ofWords 1 1 [0]) 1 } with
    width := 1, height := 1, row := 1, col := 0, idx := 1, bcnt := 1 }

/-- In `CHECK` with a code, a source and a sink. -/
def checking (c : FmtCode) (src : List (Option Image)) (ready : List Bool) : State :=
  inPhase .check c { Env.initial with
    sources := src, readyAns := ready, writeAns := [true, true, true, true], closeAns := [true] }

/-! ### Well-formedness: a term that each check refuses -/

theorem test_illFormed_instructions_refused :
    Instr.wellFormed 1 .encRgba5551 = false ∧ Instr.wellFormed 0 .encI4 = false ∧
    Instr.wellFormed 3 .encI8 = false ∧ Instr.wellFormed 2 .encIa4 = false ∧
    Instr.wellFormed 5 .encIa8 = false ∧ Instr.wellFormed 4 .reserved5 = false ∧
    Instr.wellFormed 7 .reserved6 = false ∧ Instr.wellFormed 6 .reserved7 = false ∧
    Instr.wellFormed 0 .intens = false ∧ Instr.wellFormed 1 .emit16 = false ∧
    Instr.wellFormed 3 .emit8 = false ∧ Instr.wellFormed 2 .emit4 = false ∧
    Instr.wellFormed 5 .flush4 = false ∧ Instr.wellFormed 7 .next = false := by decide

theorem test_illFormed_program_refused :
    PackProgram.wellFormed { token := "i8", width := 2, height := 1, samples := [0] } = false := by decide

theorem test_wellFormed_program_accepted :
    PackProgram.wellFormed { token := "i8", width := 2, height := 1, samples := [0, 1] } = true := by
  decide

/-! ### Decoding: words written out from R50, R54, R65 and the table's INTERNAL rows -/

theorem test_decode_format_codes :
    decode (.fmt 0b000) = .ok .encRgba5551 ∧ decode (.fmt 0b001) = .ok .encI4 ∧
    decode (.fmt 0b010) = .ok .encI8 ∧ decode (.fmt 0b011) = .ok .encIa4 ∧
    decode (.fmt 0b100) = .ok .encIa8 := ⟨rfl, rfl, rfl, rfl, rfl⟩

theorem test_decode_reserved_codes :
    decode (.fmt 0b101) = .ok .reserved5 ∧ decode (.fmt 0b110) = .ok .reserved6 ∧
    decode (.fmt 0b111) = .ok .reserved7 := ⟨rfl, rfl, rfl⟩

theorem test_decode_ctrl_words :
    decode (.ctrl 1) = .ok .start ∧ decode (.ctrl 0) = .ok .ctrlNone ∧
    decode (.ctrl 0xFF) = .ok .start ∧ decode (.ctrl 0xFE) = .ok .ctrlNone := ⟨rfl, rfl, rfl, rfl⟩

theorem test_decode_internal_operations :
    decode (.internal .intensity 0b001) = .ok .intens ∧ decode (.internal .emitter 0b000) = .ok .emit16 ∧
    decode (.internal .emitter 0b010) = .ok .emit8 ∧ decode (.internal .emitter 0b011) = .ok .emit4 ∧
    decode (.internal .flush 0b000) = .ok .flush4 ∧ decode (.internal .advance 0b100) = .ok .next :=
  ⟨rfl, rfl, rfl, rfl, rfl, rfl⟩

theorem test_decode_rejects_by_name :
    decode (.internal .intensity 0b000) = .error (.noOperation .intensity 0b000) ∧
    decode (.internal .emitter 0b101) = .error (.noOperation .emitter 0b101) := ⟨rfl, rfl⟩

theorem test_decodeTableWord :
    decodeTableWord 8 3 = some .encIa4 ∧ decodeTableWord 8 7 = some .reserved7 ∧
    decodeTableWord 1 1 = some .start := by decide

/-- 95_test_vectors.md section 2.1. -/
theorem test_tokens :
    decodeToken "rgba5551" = 0 ∧ decodeToken "i4" = 1 ∧ decodeToken "i8" = 2 ∧ decodeToken "ia4" = 3 ∧
    decodeToken "ia8" = 4 ∧ decodeToken "ci4" = 7 ∧ decodeToken "RGBA5551" = 7 ∧
    decodeToken "i4 " = 7 ∧ decodeToken "rgba555" = 7 ∧ decodeToken "" = 7 := by decide

/-- R56, and the sample words of program P1. -/
theorem test_sample_word :
    Sample.ofWord 0xC8643219 = { r := 200, g := 100, b := 50, a := 25 } ∧
    Sample.word { r := 255, g := 0, b := 0, a := 255 } = 0xFF0000FF := by decide

/-! ### One instruction on the spec's vectors -/

/-- 95_test_vectors.md section 2.2: `(255,255,254)` has `SUM = 764`, `INT = 254`. -/
theorem test_intens_truncates :
    nextWith (exec .intens (withPx 255 255 254 0)) (fun t => t.sum == 764 && t.int == 254) = true := by
  decide

/-- Section 2.2: `(255,255,255)` needs the 10-bit sum. -/
theorem test_intens_ten_bits :
    nextWith (exec .intens (withPx 255 255 255 0)) (fun t => t.sum == 765 && t.int == 255) = true := by
  decide

/-- Section 2.3: `(8,8,8,1)` gives `0843`. -/
theorem test_encRgba5551_low_bits :
    nextWith (exec .encRgba5551 (withPx 8 8 8 1)) (fun t => t.bg == 0x0843) = true := by decide

/-- Section 2.3: `(247,247,247,128)` gives `F7BD`. -/
theorem test_encRgba5551_field_30 :
    nextWith (exec .encRgba5551 (withPx 247 247 247 128)) (fun t => t.bg == 0xF7BD) = true := by decide

/-- Section 2.3: `(16,16,15,255)` gives `0`, `(200,200,200,255)` gives `C`. -/
theorem test_encI4 :
    nextWith (exec .encI4 (withPx 16 16 15 255)) (fun t => t.bg == 0) = true ∧
    nextWith (exec .encI4 (withPx 200 200 200 255)) (fun t => t.bg == 0xC) = true := by decide

/-- Section 2.3: `(255,255,254,0)` gives `FE`. -/
theorem test_encI8 :
    nextWith (exec .encI8 (withPx 255 255 254 0)) (fun t => t.bg == 0xFE) = true := by decide

/-- Section 2.3: `(255,255,255,0)` gives `E`, `(31,32,32,1)` gives `1`. -/
theorem test_encIa4 :
    nextWith (exec .encIa4 (withPx 255 255 255 0)) (fun t => t.bg == 0xE) = true ∧
    nextWith (exec .encIa4 (withPx 31 32 32 1)) (fun t => t.bg == 1) = true := by decide

/-- Section 2.3: `(255,255,255,239)` gives `FE`, `(100,100,100,15)` gives `60`. -/
theorem test_encIa8 :
    nextWith (exec .encIa8 (withPx 255 255 255 239)) (fun t => t.bg == 0xFE) = true ∧
    nextWith (exec .encIa8 (withPx 100 100 100 15)) (fun t => t.bg == 0x60) = true := by decide

/-- Section 2.4: `EMIT16` of `0887`. -/
theorem test_emit16 :
    nextWith (exec .emit16 (withGroup 0x0887 0 false [true, true]))
      (fun t => t.env.snk == [(0, 0x08), (1, 0x87)] && t.bcnt == 2 && t.phase == .idle) = true := by
  decide

/-- Section 2.4: `EMIT16` whose second write fails leaves `BCNT` at `n + 1`. -/
theorem test_emit16_torn :
    nextWith (exec .emit16 (withGroup 0x07C1 0 false [true, false]))
      (fun t => t.bcnt == 1 && t.phase == .err && t.errcode == 3) = true := by decide

/-- Section 2.4: `EMIT8` of `006F`. -/
theorem test_emit8 :
    nextWith (exec .emit8 (withGroup 0x006F 0 false [true]))
      (fun t => t.env.snk == [(0, 0x6F)] && t.bcnt == 1) = true := by decide

/-- Section 2.4: `EMIT4`, first of a pair, nibble 0, is still pending. -/
theorem test_emit4_holds_zero :
    nextWith (exec .emit4 (withGroup 0 0 false []))
      (fun t => t.env.snk == [] && t.acc == 0 && t.pend && t.bcnt == 0) = true := by decide

/-- Section 2.4: `EMIT4`, second of a pair, writes `71`; refused it keeps `F0`. -/
theorem test_emit4_second :
    nextWith (exec .emit4 (withGroup 1 0x70 true [true]))
      (fun t => t.env.snk == [(0, 0x71)] && t.acc == 0 && !t.pend && t.bcnt == 1) = true ∧
    nextWith (exec .emit4 (withGroup 8 0xF0 true [false]))
      (fun t => t.acc == 0xF0 && t.pend && t.bcnt == 0 && t.errcode == 3) = true := by decide

/-- Section 2.4: `FLUSH4` with `C0` pending, and with nothing pending. -/
theorem test_flush4 :
    nextWith (exec .flush4 (withGroup 0 0xC0 true [true]))
      (fun t => t.env.snk == [(0, 0xC0)] && t.acc == 0 && !t.pend && t.bcnt == 1) = true ∧
    nextWith (exec .flush4 (withGroup 0 0 false []))
      (fun t => t.env.snk == [] && t.bcnt == 0 && !t.pend) = true := by decide

/-- Section 2.5: `(0,2,2)` to `(1,0,3)` with `WIDTH = 3`. -/
theorem test_next_row_end :
    nextWith (exec .next { State.reset with width := 3, height := 2, col := 2, idx := 2 })
      (fun t => t.row == 1 && t.col == 0 && t.idx == 3) = true := by decide

/-- Section 2.5: `(0,1,1)` to `(0,2,2)` with `WIDTH = 3`. -/
theorem test_next_in_row :
    nextWith (exec .next { State.reset with width := 3, height := 2, col := 1, idx := 1 })
      (fun t => t.row == 0 && t.col == 2 && t.idx == 2) = true := by decide

/-- Program P12: `START` after a failed run with a nibble pending. -/
theorem test_start_clears :
    nextWith (exec .start { withGroup 0 0x40 true [] with
        phase := .err, errcode := 3, row := 1, idx := 3, bcnt := 1, width := 3, height := 1 })
      (fun t => t.phase == .check && t.errcode == 0 && t.idx == 0 && t.row == 0 && t.bcnt == 0 &&
        t.acc == 0 && !t.pend && t.width == 3) = true := by decide

/-- Section 2.7: `START` written while `PHASE = RUN` changes nothing. -/
theorem test_start_busy : exec .start (running 0) = .next (running 0) := rfl

theorem test_ctrlNone : exec .ctrlNone (running 0) = .next (running 0) := rfl

/-- Section 2.7: reserved codes give `ERRCODE = 1`. -/
theorem test_reserved_codes :
    nextWith (exec .reserved5 State.reset) (fun t => t.errcode == 1 && t.phase == .err) = true ∧
    nextWith (exec .reserved6 State.reset) (fun t => t.errcode == 1 && t.phase == .err) = true ∧
    nextWith (exec .reserved7 State.reset) (fun t => t.errcode == 1 && t.phase == .err) = true := by
  decide

/-! ### One step -/

/-- Program P6: one step from `CHECK` with code 7; `STATUS` reads 7 and nothing was asked. -/
theorem test_check_ci4 :
    nextWith (step (checking 7 [] [])) (fun t => t.status == 7 && t.env.events == []) = true := by decide

/-- Program P8: the sink is not ready; `STATUS` reads `F`, the dimensions are latched. -/
theorem test_check_sink_not_ready :
    nextWith (step (checking 2 [some (Image.ofWords 2 2 [])] [false]))
      (fun t => t.status == 0xF && t.width == 2 && t.height == 2 && t.bcnt == 0) = true := by decide

/-- R112's example: `(255,0,0,255)` at `(0, 1)` of a 2-wide image as `RGBA5551`. -/
theorem test_run_rgba5551 :
    nextWith (step ({ running 0 with col := 1, idx := 1, bcnt := 2, height := 2 }.setEnv
        { Env.initial with
          image := Image.ofWords 2 2 [0, 0xFF0000FF], writeAns := [true, true] }))
      (fun t => t.env.snk == [(0, 0xF8), (1, 0x01)] && t.row == 1 && t.col == 0 && t.idx == 2 &&
        t.bcnt == 4) = true := by decide

/-- The first instruction after reset that the host asks for runs at once. -/
theorem test_withFetchWord_format :
    nextWith (step (State.reset.withFetchWord 8 0)) (fun t => t.bcnt == 2 && t.idx == 1) = true ∧
    nextWith (step (State.reset.withFetchWord 8 3)) (fun t => t.pend && t.idx == 1) = true := by decide

theorem test_withFetchWord_reserved_and_ctrl :
    nextWith (step (State.reset.withFetchWord 8 6)) (fun t => t.errcode == 1) = true ∧
    nextWith (step (State.reset.withFetchWord 1 1)) (fun t => t.phase == .check) = true := by decide

/-- Program P2's stream, by the reference function. -/
theorem test_pack_p2 :
    pack .i4 ([0xFFFFFFFF, 0x808080FF, 0x404040FF, 0x20202000, 0x101010FF, 0xC8643219, 0x00000000,
      0x0F0F0F0F, 0xF0F0F001].map Sample.ofWord) = [0xF8, 0x42, 0x17, 0x00, 0xF0] := by decide

/-! ### States that meet the hypotheses of the statements -/

theorem witness_ctrlWrite : 1 % 2 = 1 ∧ 0xFF % 2 = 1 ∧ 0 % 2 = 0 ∧ 0xFE % 2 = 0 := by decide

theorem witness_otherToken : "ci4" ∉ ["rgba5551", "i4", "i8", "ia4", "ia8"] := by decide

theorem witness_invalidTokenFromRest :
    (State.reset.setEnv { Env.initial with moves := tokenMoves "ci4" }).phase.busy = false ∧
    (State.reset.setEnv { Env.initial with moves := tokenMoves "ci4" }).env.moves = tokenMoves "ci4" :=
  ⟨rfl, rfl⟩

theorem witness_decodeAndEncode :
    Instr.wellFormed 4 .emit8 = true ∧ decode (.fmt 7) = .ok .reserved7 ∧ decode (.ctrl 2) = .ok .ctrlNone ∧
    decode (.internal .intensity 4) = .ok .intens := ⟨rfl, rfl, rfl, rfl⟩

theorem witness_intensityNeedsNoDivider :
    ∃ s t : State, exec .intens s = .next t ∧ t.sum = 765 := ⟨withPx 255 255 255 0, _, rfl, by decide⟩

theorem witness_encoderSeesOnlyTheSample :
    (withPx 1 2 3 4).px = ((withPx 1 2 3 4).setHeld 9 true).px ∧
    withPx 1 2 3 4 ≠ (withPx 1 2 3 4).setHeld 9 true := by decide

theorem witness_groupFitsItsFormat :
    ∃ s t : State, exec Format.i4.encoder s = .next t ∧ t.bg = 15 :=
  ⟨withPx 255 255 255 0, _, rfl, by decide⟩

theorem witness_emitSixteen :
    (withGroup 0xF801 0 false [true, true]).env.writeAns = [true, true] ∧
    (withGroup 0xF801 0 false [false]).env.writeAns = [false] ∧
    (withGroup 0xF801 0 false [true, false]).env.writeAns = [true, false] := by decide

theorem witness_emitEight :
    (withGroup 0x6F 0 false [true]).env.writeAns = true :: [] ∧
    (withGroup 0x6F 0 false [false]).env.writeAns = false :: [] := by decide

theorem witness_emitFour :
    (withGroup 0xC 0 false []).pend = false ∧
    ((withGroup 0 0xC0 true [true]).pend = true ∧ (withGroup 0 0xC0 true [true]).env.writeAns = [true]) ∧
    ((withGroup 0 0xC0 true [false]).pend = true ∧
      (withGroup 0 0xC0 true [false]).env.writeAns = [false]) := by decide

theorem witness_next_clauses :
    (State.reset.setDims 1 1).col + 1 = (State.reset.setDims 1 1).width ∧
    (State.reset.setDims 2 1).col + 1 ≠ (State.reset.setDims 2 1).width ∧
    ({ State.reset with width := 65535, col := 65534 } : State).col + 1 = 65535 := by decide

theorem witness_instructionsStoreOnlyAtTheEnd :
    (∃ t, exec .emit16 (withGroup 0xF801 0 false [true, true]) = .next t) ∧
    (∃ t, exec .emit8 (withGroup 0x6F 0 false [true]) = .next t) ∧
    (∃ t, exec .next State.reset = .next t) ∧
    (∃ t, exec .emit4 (withGroup 0 0 false []) = .next t) ∧ (withGroup 0 0 false []).pend = false :=
  ⟨⟨_, rfl⟩, ⟨_, rfl⟩, ⟨_, rfl⟩, ⟨_, rfl⟩, rfl⟩

theorem witness_emittersComplete : Instr.flush4 ∈ [Instr.emit16, .emit8, .emit4, .flush4] := by decide

theorem witness_start_phases :
    State.reset.phase = .idle ∧ (finished .done).phase = .done ∧ (State.reset.raise .sinkFailure).phase = .err ∧
    (checking 0 [] []).phase = .check ∧ (running 0).phase = .run ∧ (finished .flush).phase = .flush ∧
    (finished .close).phase = .close := by decide

theorem witness_reservedRows : Instr.reserved5 ∈ [Instr.reserved5, .reserved6, .reserved7] := by decide

theorem witness_reservedCodeInCheck :
    (checking 5 [] []).env.moves = [] ∧ (checking 5 [] []).phase = .check ∧
    5 ≤ (checking 5 [] []).fmt.toNat ∧ 5 ≤ (checking 7 [] []).fmt.toNat := by decide

theorem witness_checkStep :
    (checking 4 [none] []).env.moves = [] ∧ (checking 4 [none] []).phase = .check ∧
    (checking 4 [none] []).fmt.toNat ≤ 4 ∧ (checking 4 [none] []).env.sources = none :: [] ∧
    (checking 0 [some image2x1] [false]).env.sources = some image2x1 :: [] ∧
    (checking 0 [some image2x1] [false]).env.readyAns = false :: [] ∧
    (checking 0 [some image2x1] [true]).env.readyAns = true :: [] := by decide

theorem witness_runStep_noPixelLeft :
    (inPhase .run 0 Env.initial).env.moves = [] ∧ (inPhase .run 0 Env.initial).phase = .run ∧
    (inPhase .run 0 Env.initial).idx =
      (inPhase .run 0 Env.initial).width * (inPhase .run 0 Env.initial).height := by decide

theorem witness_stepRuns_pixel :
    (running 0).env.moves = [] ∧ (running 0).phase = .run ∧ decode (.fmt (running 0).fmt) = .ok .encRgba5551 ∧
    (running 0).idx ≠ (running 0).width * (running 0).height ∧
    (running 0).row < (running 0).env.image.height ∧
    (running 0).col < (running 0).env.image.width :=
  ⟨rfl, rfl, rfl, by decide, by decide, by decide⟩

theorem witness_stepRuns_operations :
    (∃ t, exec .next State.reset = .next t ∧ t.phase ≠ .err) ∧
    (∃ t, exec .reserved5 State.reset = .next t ∧ t.phase = .err) :=
  ⟨⟨_, rfl, by decide⟩, ⟨_, rfl, by decide⟩⟩

theorem witness_stepRuns_others :
    ((checking 6 [] []).env.moves = [] ∧ (checking 6 [] []).phase = .check ∧
      formatOf (checking 6 [] []).fmt = none ∧ decode (.fmt (checking 6 [] []).fmt) = .ok .reserved6) ∧
    ((finished .flush).env.moves = [] ∧ (finished .flush).phase = .flush ∧
      exec .flush4 (finished .flush) = .next (finished .flush)) ∧
    ((State.reset.atCtrlWord 1).env.moves = .write 1 1 :: [] ∧ decode (.ctrl 1) = .ok .start) :=
  ⟨⟨rfl, rfl, rfl, rfl⟩, ⟨rfl, rfl, rfl⟩, ⟨rfl, rfl⟩⟩

theorem witness_runStepHandlesOnePixel :
    (running 0).env.moves = [] ∧ (running 0).phase = .run ∧
    formatOf (running 0).fmt = some .rgba5551 ∧ formatOf (running 2).fmt = some .i8 ∧
    formatOf (running 3).fmt = some .ia4 ∧ (running 3).pend = false ∧
    ((running 3).setHeld 0x70 true).pend = true ∧ formatOf ((running 3).setHeld 0x70 true).fmt = some .ia4 ∧
    (running 0).env.writeAns = true :: true :: [] ∧ (running 0).col + 1 ≠ (running 0).width ∧
    ((running 0).setDims 1 2).col + 1 = ((running 0).setDims 1 2).width := by decide

theorem witness_sourceReads :
    [0xFF0000FF#32, 0x0A141E28#32].length = 2 * 1 ∧ (running 0).env.image = Image.ofWords 2 1 [0xFF0000FF, 0x0A141E28] ∧
    1 < 2 ∧ 0 < 1 := by decide

theorem witness_flushStep :
    (finished .flush).pend = false ∧ ((finished .flush).setHeld 0xC0 true).pend = true ∧
    ((finished .flush).setHeld 0xC0 true).phase = .flush ∧
    (((finished .flush).setHeld 0xC0 true).setEnv { Env.initial with writeAns := [true] }).env.writeAns =
      true :: [] ∧
    (((finished .flush).setHeld 0xC0 true).setEnv { Env.initial with writeAns := [false] }).env.writeAns =
      false :: [] := by decide

theorem witness_close_entered :
    ∃ t, (finished .flush).phase ≠ .close ∧ step (finished .flush) = .next t ∧ t.phase = .close :=
  ⟨_, by decide, rfl, rfl⟩

theorem witness_closeStep :
    (finished .close).env.moves = [] ∧ (finished .close).env.closeAns = true :: [] ∧
    ((finished .close).setEnv { Env.initial with closeAns := [false] }).env.closeAns = false :: [] := by decide

theorem witness_resting :
    (finished .done).env.moves = [] ∧
    ∃ t, step ((finished .done).atCtrlWord 1) = .next t ∧ t.phase ≠ .done ∧
      ((finished .done).atCtrlWord 1).env.moves = .write 1 1 :: [] :=
  ⟨rfl, _, rfl, by decide, rfl⟩

theorem witness_raising :
    ∃ t, (checking 7 [] []).phase ≠ .err ∧ step (checking 7 [] []) = .next t ∧ t.phase = .err :=
  ⟨_, by decide, rfl, by decide⟩

theorem witness_registerSpace :
    (2 ≤ 2 ∧ 2 ≤ 6 ∧ 6 < 7) ∧ State.reset.phase.busy = false ∧ (running 0).phase.busy = true ∧
    0xFF % 2 = 1 ∧ 0xFE % 2 = 0 := by decide

theorem witness_formatIsFixed :
    ∃ t, (running 0).phase.busy = true ∧ (∀ rest, (running 0).env.moves ≠ .reset :: rest) ∧
      step (running 0) = .next t := ⟨_, rfl, fun rest h => (by cases h), rfl⟩

theorem witness_dimensionsAreLatched :
    ∃ t, step (checking 0 [some image2x1] [true]) = .next t ∧ t.width ≠ State.reset.width ∧
      t.env.image ≠ (checking 0 [some image2x1] [true]).env.image := ⟨_, rfl, by decide, by decide⟩

theorem witness_dimensionsFromTheAnswer :
    ∃ t, step (checking 0 [some image2x1] [true]) = .next t ∧
      t.env.events = (checking 0 [some image2x1] [true]).env.events ++
        [.srcOpen (some (2, 1)), .sinkReady true] := ⟨_, rfl, rfl⟩

theorem witness_sinkOnlyGrows :
    ∃ t, (∀ content rest, (running 0).env.moves ≠ .sink content :: rest) ∧ step (running 0) = .next t :=
  ⟨_, fun content rest h => (by cases h), rfl⟩

theorem witness_acceptedBytesReachTheStorage :
    ∃ t, (running 0).phase.busy = true ∧ (running 0).storesStream ∧ step (running 0) = .next t ∧
      t.phase ≠ .err := ⟨_, rfl, List.suffix_refl _, rfl, by decide⟩

theorem witness_startForgets :
    State.reset.phase.busy = false ∧ ({ State.reset with acc := 0x40, pend := true } : State).phase.busy = false ∧
    State.reset ≠ { State.reset with acc := 0x40, pend := true } := by decide

theorem witness_modelStops :
    ((running 0).setEnv Env.initial).env.moves = [] ∧ ((running 0).setEnv Env.initial).phase = .run ∧
    ((running 0).setEnv Env.initial).idx ≠
      ((running 0).setEnv Env.initial).width * ((running 0).setEnv Env.initial).height ∧
    ((running 0).setEnv Env.initial).env.image.height ≤ ((running 0).setEnv Env.initial).row ∧
    ((running 0).setEnv { Env.initial with moves := [.sink []] }).phase.busy = true := by decide

theorem witness_memoriesCanonical :
    ∃ t, (running 0).env.memWf = true ∧ step (running 0) = .next t := ⟨_, by decide, rfl⟩

/-- The state that `CHECK` starts from meets the invariants. -/
theorem witness_checking_inv (c : FmtCode) (src : List (Option Image)) (ready : List Bool) :
    ConvInv (checking c src ready) ∧ HistoryInv (checking c src ready) := by
  constructor
  · refine ⟨rfl, ?_, fun _ => ⟨rfl, rfl, rfl, rfl, rfl, rfl⟩, ?_, ?_, ?_, ?_, ?_⟩
    · exact ⟨fun h => absurd rfl h, fun h => by cases h⟩
    all_goals exact fun h => by cases h
  · refine ⟨fun _ => rfl, ?_, ?_, ?_, ?_, ?_⟩
    all_goals exact fun h => by cases h

/-- A state about to close meets the invariants. -/
theorem witness_closing_inv : ConvInv (finished .close) ∧ HistoryInv (finished .close) := by
  constructor
  · refine ⟨by decide, ?_, ?_, ?_, ?_, ?_, ?_, ?_⟩
    · exact ⟨fun h => absurd rfl h, fun h => by cases h⟩
    · exact fun h => by cases h
    · exact fun h => by cases h
    · exact fun h => by cases h
    · exact fun _ => ⟨⟨rfl, rfl, rfl, fun _ => by decide, by decide, by decide⟩, by decide, rfl, rfl,
        .i8, rfl, by decide⟩
    · exact fun h => by cases h
    · exact fun h => by cases h
  · refine ⟨?_, ?_, ?_, fun _ => ⟨.i8, rfl, by decide⟩, ?_, ?_⟩
    · rintro (h | h) <;> cases h
    all_goals exact fun h => by cases h

/-- In `FLUSH` after a 1x1 image of intensity 0 in format `I4`, whose nibble is held. -/
def holding : State :=
  { inPhase .flush 1 { Env.initial with
      image := Image.ofWords 1 1 [0], events := historyUpTo .i4 (Image.ofWords 1 1 [0]) 1 } with
    width := 1, height := 1, row := 1, col := 0, idx := 1, acc := 0, pend := true }

theorem witness_flush_holding :
    ConvInv holding ∧ holding.phase = .flush ∧ formatOf holding.fmt = some .i4 := by
  refine ⟨⟨by decide, ⟨fun h => absurd rfl h, fun h => by cases h⟩, ?_, ?_, ?_, ?_, ?_, ?_⟩, rfl, rfl⟩
  · exact fun h => by cases h
  · exact fun h => by cases h
  · exact fun _ => ⟨⟨rfl, rfl, rfl, fun _ => by decide, by decide, by decide⟩, by decide, .i4, rfl,
      ⟨by decide, by decide, by decide⟩⟩
  all_goals exact fun h => by cases h

/-- In `RUN` with an image of no pixels, by its width and by its height. -/
theorem witness_emptyImage :
    ConvInv ((inPhase .run 3 { Env.initial with
        image := Image.ofWords 0 5 [], closeAns := [true] }).setDims 0 5) ∧
    ((inPhase .run 3 { Env.initial with
        image := Image.ofWords 0 5 [], closeAns := [true] }).setDims 0 5).idx = 0 := by
  refine ⟨⟨by decide, ⟨fun h => absurd rfl h, fun h => by cases h⟩, ?_, ?_, ?_, ?_, ?_, ?_⟩, rfl⟩
  · exact fun h => by cases h
  · exact fun _ => ⟨⟨rfl, rfl, by decide, fun h => absurd h (by decide), by decide, by decide⟩,
      .ia4, rfl, ⟨by decide, by decide, by decide⟩⟩
  all_goals exact fun h => by cases h

/-- In `RUN` with `WIDTH = 5` and `HEIGHT = 0`. -/
def noRows : State :=
  (inPhase .run 3 { Env.initial with image := Image.ofWords 5 0 [], closeAns := [true] }).setDims 5 0

theorem witness_emptyImage_noRows :
    ConvInv noRows ∧ noRows.idx = 0 ∧ noRows.height = 0 ∧ noRows.width ≠ 0 ∧ noRows.env.moves = [] := by
  refine ⟨⟨by decide, ⟨fun h => absurd rfl h, fun h => by cases h⟩, ?_, ?_, ?_, ?_, ?_, ?_⟩, rfl, rfl,
    by decide, rfl⟩
  · exact fun h => by cases h
  · exact fun _ => ⟨⟨rfl, rfl, by decide, fun _ => by decide, by decide, by decide⟩,
      .ia4, rfl, ⟨by decide, by decide, by decide⟩⟩
  all_goals exact fun h => by cases h

/-- In `RUN` at the first pixel of the 2x1 image as `RGBA5551`, with a sink that refuses. -/
def refusing : State :=
  { running 0 with
    env := { Env.initial with
      image := image2x1, writeAns := [false], events := historyUpTo .rgba5551 image2x1 0 } }

theorem witness_abortedRun :
    ConvInv refusing ∧
    HistoryInv refusing ∧
    ∃ t, step refusing = .next t ∧ t.phase = .err := by
  refine ⟨⟨by decide, ⟨fun h => absurd rfl h, fun h => by cases h⟩, ?_, ?_, ?_, ?_, ?_, ?_⟩,
    ⟨?_, fun _ => ⟨.rgba5551, rfl, rfl⟩, ?_, ?_, ?_, ?_⟩, _, rfl, rfl⟩
  · exact fun h => by cases h
  · exact fun _ => ⟨⟨rfl, rfl, rfl, fun _ => by decide, by decide, by decide⟩, .rgba5551, rfl,
      ⟨by decide, by decide, by decide⟩⟩
  · exact fun h => by cases h
  · exact fun h => by cases h
  · exact fun h => by cases h
  · exact fun h => by cases h
  · rintro (h | h) <;> cases h
  all_goals exact fun h => by cases h

/-- The widths at `DIM_BITS = 2`: a state in `RUN` before and at the last boundary of a 2x1 image. -/
theorem witness_widths :
    FitsWidths refusing 2 ∧
    refusing.env.image.width < 2 ^ 2 ∧
    refusing.idx ≠ 2 * 1 ∧ noRows.idx = noRows.width * noRows.height ∧
    0 < noRows.width := by
  refine ⟨⟨by decide, by decide, by decide, by decide, by decide, by decide⟩, by decide, by decide,
    by decide, by decide⟩

theorem witness_presentingASink :
    (State.reset.setEnv { Env.initial with moves := [.sink [1, 2]] }).phase.busy = false ∧
    (State.reset.setEnv { Env.initial with moves := [.sink [1, 2]] }).env.moves = .sink [1, 2] :: [] :=
  ⟨rfl, rfl⟩

theorem witness_closeStep_otherMoves :
    ∃ t, (∀ rest, ((finished .close).atCtrlWord 1).env.moves ≠ .core :: rest) ∧
      ((finished .close).atCtrlWord 1).env.moves ≠ [] ∧
      step ((finished .close).atCtrlWord 1) = .next t ∧ t.phase = .close :=
  ⟨_, fun rest h => (by cases h), by decide, rfl, rfl⟩

theorem witness_doneMeansTheWholeStream :
    ∃ t, (finished .close).env.moves = [] ∧ (finished .close).phase = .close ∧
      step (finished .close) = .next t ∧ t.phase = .done := ⟨_, rfl, rfl, rfl, by decide⟩

theorem witness_runsNeverStop :
    ConvInv (checking 7 [] []) ∧ (checking 7 [] []).dutyKept = true :=
  ⟨(witness_checking_inv 7 [] []).1, rfl⟩

theorem witness_favourableConversion :
    (checking 0 [some image2x1] [true]).env.moves = [] ∧
    formatOf (checking 0 [some image2x1] [true]).fmt = some .rgba5551 ∧
    (checking 0 [some image2x1] [true]).env.sources = some image2x1 :: [] ∧
    (checking 0 [some image2x1] [true]).env.readyAns = true :: [] ∧
    (checking 0 [some image2x1] [true]).env.writeAns =
      List.replicate (streamLength .rgba5551 image2x1.count) true ++ [] ∧
    (checking 0 [some image2x1] [true]).env.closeAns = true :: [] := by decide

theorem witness_packMeetsTheStreamMap :
    0 < streamLength .i4 [Sample.ofWord 0].length ∧ 1 < streamLength .rgba5551 [Sample.ofWord 0].length ∧
    0 < streamLength .i8 [Sample.ofWord 0].length := by decide

theorem witness_oddStream :
    Format.i4.widthClass = .w4 ∧ ([] ++ [Sample.ofWord 0]).length % 2 = 1 ∧
    ([Sample.ofWord 1, Sample.ofWord 2] ++ [Sample.ofWord 0]).length % 2 = 1 := by decide

end Sys2Proof.Tests
end

namespace Sys2Proof.Machine

variable {s t : State} {d : Nat}

/-! One step as one move. -/

/-- Every step is one move, made with some list of moves left; with no move given it is the core's. -/
theorem step_eq_moveStep (s : State) :
    ∃ m ms, step s = moveStep m (s.setEnv { s.env with moves := ms }) := by
  cases h : s.env.moves with
  | nil => exact ⟨.core, s.env.moves, step_noMoves h⟩
  | cons m rest => exact ⟨m, rest, step_move h⟩

/-! The invariants do not look at the moves to come. -/

theorem iteratorInv_setMoves (ms : List Move) :
    IteratorInv (s.setEnv { s.env with moves := ms }) ↔ IteratorInv s :=
  ⟨fun h => { h with }, fun h => { h with }⟩

theorem packerInv_setMoves (f : Format) (ms : List Move) :
    PackerInv f (s.setEnv { s.env with moves := ms }) ↔ PackerInv f s :=
  ⟨fun h => { h with }, fun h => { h with }⟩

theorem ConvInv.setMoves (h : ConvInv s) (ms : List Move) :
    ConvInv (s.setEnv { s.env with moves := ms }) :=
  { h with
    running := by simp only [iteratorInv_setMoves, packerInv_setMoves]; exact h.running
    flushing := by simp only [iteratorInv_setMoves, packerInv_setMoves]; exact h.flushing
    closing := by simp only [iteratorInv_setMoves]; exact h.closing
    completed := by simp only [iteratorInv_setMoves]; exact h.completed }

/-! What the invariant of a conversion says of the counters (R21, R94). -/

/-- A held nibble has no byte of its own yet (R104). -/
theorem packing_out_length_lt_of_pend {f : Format} {ps : List Sample}
    (h : (packing f ps).pend = true) : (packing f ps).out.length < ps.length := by
  rw [packing_pend, Bool.and_eq_true, decide_eq_true_eq, decide_eq_true_eq] at h
  obtain ⟨hc, hodd⟩ := h
  have hlen := packing_out_length f ps
  simp only [hc] at hlen
  omega

/-- At most two bytes are accepted for each pixel handled (R21). -/
theorem PackerInv.written_le {f : Format} (h : PackerInv f s) : s.written.length ≤ 2 * s.idx := by
  have hout := packing_out_length_le f (s.env.image.pixels.take s.idx)
  have htake := List.length_take_le s.idx s.env.image.pixels
  rw [h.out_eq]
  omega

/-- While a nibble is held fewer bytes than pixels are accepted (R104). -/
theorem PackerInv.written_lt_of_pend {f : Format} (h : PackerInv f s) (hp : s.pend = true) :
    s.written.length < s.idx := by
  have hout := packing_out_length_lt_of_pend (h.pend_eq.symm.trans hp)
  have htake := List.length_take_le s.idx s.env.image.pixels
  rw [h.out_eq]
  omega

theorem IteratorInv.idx_le_pixelCount (h : IteratorInv s) : s.idx ≤ s.pixelCount := by
  rw [State.pixelCount_eq, h.width_eq, h.height_eq]
  exact h.idx_le

/-- While pixels are left the iterator stands inside the rectangle (R94). -/
theorem IteratorInv.inside (h : IteratorInv s) (hn : s.idx ≠ s.pixelCount) :
    s.row < s.height ∧ s.col < s.width := by
  have hlt : s.row * s.width + s.col < s.height * s.width := by
    rw [← h.flat, Nat.mul_comm]
    exact lt_of_le_of_ne h.idx_le_pixelCount hn
  have hrow : s.row * s.width < s.height * s.width := by omega
  exact ⟨Nat.lt_of_mul_lt_mul_right hrow, h.col_lt (Nat.pos_of_lt_mul_left hrow)⟩

/-- Emitting one bit-group writes at most two bytes (R95 to R97). -/
theorem Emits.length_le {f : Format} {g : Group} {acc acc' : Byte} {pend pend' : Bool}
    {new : List Byte} (h : Emits f g acc pend new acc' pend') : new.length ≤ 2 := by
  unfold Emits at h
  cases hc : f.widthClass with
  | w16 => simp only [hc] at h; simp [h.1]
  | w8 => simp only [hc] at h; simp [h.1]
  | w4 =>
    simp only [hc] at h
    obtain ⟨-, rfl, -⟩ | ⟨-, rfl, -⟩ := h <;> simp

/-- An emitter that stops has at most one byte accepted (R95). -/
theorem EmitStops.length_le {f : Format} {g : Group} {acc : Byte} {pend : Bool}
    {pre : List Byte} {b : Byte} (h : EmitStops f g acc pend pre b) : pre.length ≤ 1 := by
  unfold EmitStops at h
  cases hc : f.widthClass with
  | w16 =>
    simp only [hc] at h
    obtain ⟨rfl, -⟩ | ⟨rfl, -⟩ := h <;> simp
  | w8 => simp only [hc] at h; simp [h.1]
  | w4 => simp only [hc] at h; simp [h.2.1]

/-! The widths (R6). -/

/-- A rectangle whose sides fit `d` bits has a pixel count of `2 * d` bits (R21). -/
theorem mul_lt_two_pow {w h : Nat} (hw : w < 2 ^ d) (hh : h < 2 ^ d) : w * h < 2 ^ (2 * d) := by
  rw [Nat.two_mul, Nat.pow_add]
  exact Nat.mul_lt_mul'' hw hh

theorem FitsWidths.pixelCount_lt (h : FitsWidths s d) : s.pixelCount < 2 ^ (2 * d) :=
  mul_lt_two_pow h.width_lt h.height_lt

theorem FitsWidths.applyReset (s : State) (d : Nat) : FitsWidths s.applyReset d :=
  ⟨Nat.two_pow_pos _, Nat.two_pow_pos _, Nat.two_pow_pos _, Nat.two_pow_pos _, Nat.two_pow_pos _,
    Nat.two_pow_pos _⟩

theorem FitsWidths.beginRun (h : FitsWidths s d) : FitsWidths s.beginRun d :=
  ⟨h.width_lt, h.height_lt, Nat.two_pow_pos _, Nat.two_pow_pos _, Nat.two_pow_pos _,
    Nat.two_pow_pos _⟩

/-- Inside the rectangle the iterator's advance keeps the widths (R92). -/
theorem FitsWidths.advance (h : FitsWidths s d) (hr : s.row < s.height) (hc : s.col < s.width)
    (hi : s.idx < s.pixelCount) : FitsWidths s.advance d where
  width_lt := by simpa using h.width_lt
  height_lt := by simpa using h.height_lt
  row_lt := by
    have := h.height_lt
    rw [State.advance_row]
    split <;> omega
  col_lt := by
    have := h.width_lt
    rw [State.advance_col]
    split <;> omega
  idx_lt := by
    rw [State.advance_idx]
    exact lt_of_le_of_lt hi h.pixelCount_lt
  bcnt_lt := by simpa using h.bcnt_lt

/-- The host can write no dimension, and of the counters it can only clear them, by `START` (R24, R110). -/
theorem hostWrite_keeps_fitsWidths {reg word : Nat} (hf : FitsWidths s d)
    (h : hostWrite reg word s = .next t) : FitsWidths t d := by
  unfold hostWrite at h
  split at h
  · cases h
    unfold State.writeFmt
    split
    · exact hf
    · exact { hf with }
  · unfold decodeCtrl at h
    split at h
    · change execStart s = .next t at h
      unfold execStart at h
      split at h <;> cases h
      · exact hf
      · exact hf.beginRun
    · cases h
      exact hf
  · cases h
    exact hf

/-! The core's steps. -/

/-- `CHECK` writes no counter, and `WIDTH` and `HEIGHT` only from the image it opened (R111, R15). -/
theorem checkStep_keeps_fitsWidths (hf : FitsWidths s d) (hw : t.env.image.width < 2 ^ d)
    (hh : t.env.image.height < 2 ^ d) (h : checkStep s = .next t) : FitsWidths t d := by
  rcases checkStep_cases s with ⟨-, hs⟩ | ⟨-, -, e, -, hs⟩ | ⟨-, -, e, -, -, hs⟩ |
    ⟨-, -, e, -, -, hs⟩ <;> cases hs.symm.trans h
  · exact { hf with }
  · exact { hf with }
  · exact { hf with width_lt := hw, height_lt := hh }
  · exact { hf with width_lt := hw, height_lt := hh }

/-- A pixel is handled only while `IDX` is below the pixel count, which fits `2 * DIM_BITS` bits, and adds
at most two bytes to at most `2 * IDX` (R21, R112). -/
theorem runStep_keeps_fitsWidths (hi : ConvInv s) (hp : s.phase = .run) (hf : FitsWidths s d)
    (h : runStep s = .next t) : FitsWidths t d := by
  obtain ⟨hit, f, hfmt, hpk⟩ := hi.running hp
  by_cases hn : s.idx = s.pixelCount
  · rw [runStep, if_pos hn] at h
    cases h
    exact { hf with }
  · obtain ⟨hr, hc⟩ := hit.inside hn
    have hidx : s.idx < s.pixelCount := lt_of_le_of_ne hit.idx_le_pixelCount hn
    have hN := hf.pixelCount_lt
    have hb : ∀ k, k ≤ 2 → s.bcnt + k < 2 ^ (2 * d + 1) := by
      have hbcnt : s.bcnt ≤ 2 * s.idx := hi.count ▸ hpk.written_le
      intro k hk
      rw [Nat.pow_succ]
      omega
    obtain ⟨w, px, sum, int, a1, -, -, hs⟩ :=
      runStep_cases hp hfmt hn (hit.height_eq ▸ hr) (hit.width_eq ▸ hc)
    rcases hs with ⟨new, acc, pend, e, hem, -, hs⟩ | ⟨pre, b, e, hst, -, hs⟩ <;>
      cases hs.symm.trans h
    · exact FitsWidths.advance { hf with bcnt_lt := hb _ hem.length_le } hr hc hidx
    · exact { hf with bcnt_lt := hb _ (hst.length_le.trans one_le_two) }

/-- `FLUSH` counts a byte only for a held nibble, and then `BCNT` is below `IDX` (R113, R104). -/
theorem flushStep_keeps_fitsWidths (hi : ConvInv s) (hp : s.phase = .flush) (hf : FitsWidths s d)
    (h : flushStep s = .next t) : FitsWidths t d := by
  obtain ⟨-, -, f, -, hpk⟩ := hi.flushing hp
  rcases flushStep_cases hp with ⟨-, hs⟩ | ⟨hpd, e, -, hs⟩ | ⟨-, e, -, hs⟩ <;>
    cases hs.symm.trans h
  · exact { hf with }
  · have hlt : s.bcnt < s.idx := hi.count ▸ hpk.written_lt_of_pend hpd
    have hidx := hf.idx_lt
    have hb : s.bcnt + 1 < 2 ^ (2 * d + 1) := by
      rw [Nat.pow_succ]
      omega
    exact { hf with bcnt_lt := hb }
  · exact { hf with }

/-- `CLOSE` writes neither a dimension nor a counter (R114). -/
theorem closeStep_keeps_fitsWidths (hf : FitsWidths s d) (h : closeStep s = .next t) :
    FitsWidths t d := by
  rcases closeStep_cases s with ⟨e, -, hs⟩ | ⟨e, -, hs⟩ <;> cases hs.symm.trans h
  · exact { hf with }
  · exact { hf with }

theorem coreStep_keeps_fitsWidths (hi : ConvInv s) (hf : FitsWidths s d)
    (hw : t.env.image.width < 2 ^ d) (hh : t.env.image.height < 2 ^ d)
    (h : coreStep s = .next t) : FitsWidths t d := by
  cases hp : s.phase <;> simp only [coreStep, hp] at h
  case check => exact checkStep_keeps_fitsWidths hf hw hh h
  case run => exact runStep_keeps_fitsWidths hi hp hf h
  case flush => exact flushStep_keeps_fitsWidths hi hp hf h
  case close => exact closeStep_keeps_fitsWidths hf h
  all_goals cases h; exact hf

theorem moveStep_keeps_fitsWidths {m : Move} (hi : ConvInv s) (hf : FitsWidths s d)
    (hw : t.env.image.width < 2 ^ d) (hh : t.env.image.height < 2 ^ d)
    (h : moveStep m s = .next t) : FitsWidths t d := by
  cases m with
  | core => exact coreStep_keeps_fitsWidths hi hf hw hh h
  | write reg word => exact hostWrite_keeps_fitsWidths hf h
  | read reg => cases h; exact { hf with }
  | reset => cases h; exact FitsWidths.applyReset s d
  | sink content =>
    rw [moveStep] at h
    split at h <;> cases h
    exact { hf with }

/-- Settles O58: by the kind of move, and for the core's own step by its phase; the invariant of a
conversion bounds `IDX` by the pixel count and `BCNT` by twice `IDX`. -/
theorem stepKeepsWidths : Obligations.StepKeepsWidths := by
  intro dimBits s t hi hf hw hh h
  obtain ⟨m, ms, hm⟩ := step_eq_moveStep s
  exact moveStep_keeps_fitsWidths (hi.setMoves ms) { hf with } hw hh (hm.symm.trans h)

end Sys2Proof.Machine

namespace Sys2Proof.Machine

variable {s t : State} {e : Env} {f : Format}

/-! The invariants look at the environment's image and events only. -/

theorem IteratorInv.setEnv (h : IteratorInv s) (hi : e.image = s.env.image) :
    IteratorInv (s.setEnv e) :=
  { h with
    width_eq := h.width_eq.trans (congrArg Image.width hi.symm)
    height_eq := h.height_eq.trans (congrArg Image.height hi.symm)
    idx_le := h.idx_le.trans_eq (congrArg Image.count hi.symm) }

theorem State.setEnv_written (he : e.events = s.env.events) : (s.setEnv e).written = s.written :=
  congrArg (List.filterMap Event.acceptedByte) he

theorem PackerInv.setEnv (h : PackerInv f s) (he : e.events = s.env.events)
    (hi : e.image = s.env.image) : PackerInv f (s.setEnv e) where
  out_eq := by simpa [State.setEnv_written he, hi] using h.out_eq
  acc_eq := by simpa [hi] using h.acc_eq
  pend_eq := by simpa [hi] using h.pend_eq

theorem ConvInv.setEnv (h : ConvInv s) (he : e.events = s.env.events)
    (hi : e.image = s.env.image) : ConvInv (s.setEnv e) where
  count := h.count.trans (congrArg List.length (State.setEnv_written he).symm)
  status := h.status
  fresh := by simpa [State.setEnv_written he] using h.fresh
  running hp := by
    obtain ⟨hit, f, hf, hpk⟩ := h.running hp
    exact ⟨hit.setEnv hi, f, hf, hpk.setEnv he hi⟩
  flushing hp := by
    obtain ⟨hit, hn, f, hf, hpk⟩ := h.flushing hp
    exact ⟨hit.setEnv hi, hn.trans (congrArg Image.count hi.symm), f, hf, hpk.setEnv he hi⟩
  closing hp := by
    obtain ⟨hit, hn, hclose⟩ := h.closing hp
    rw [State.setEnv_written he, State.setEnv_env, hi]
    exact ⟨hit.setEnv hi, hn, hclose⟩
  completed hp := by
    obtain ⟨hit, hn, hdone⟩ := h.completed hp
    rw [State.setEnv_written he, State.setEnv_env, hi]
    exact ⟨hit.setEnv hi, hn, hdone⟩
  aborted hp := by
    rw [State.setEnv_written he, State.setEnv_env, hi]
    exact h.aborted hp

/-- The bytes accepted grow by those of the new events. -/
theorem Env.Wrote.written {evs : List Event} {bs : List Byte} (h : s.env.Wrote e evs)
    (hb : evs.filterMap Event.acceptedByte = bs) (ht : t.env = e) : t.written = s.written ++ bs :=
  hb ▸ State.written_append (ht ▸ h.events)

/-- Events without an accepted byte leave the bytes as they were. -/
theorem Env.Wrote.written_same {evs : List Event} (h : s.env.Wrote e evs)
    (hb : evs.filterMap Event.acceptedByte = []) (ht : t.env = e) : t.written = s.written :=
  (h.written hb ht).trans (List.append_nil _)

/-! What suffices for the invariant in a given phase. -/

theorem errorCode_ne_zero (k : ErrorKind) : errorCode k ≠ 0 := by
  cases k <;> decide

theorem ConvInv.of_idle (hp : t.phase = .idle) (hc : t.bcnt = t.written.length)
    (he : t.errcode = 0) : ConvInv t := by
  refine ⟨hc, by simp [hp, he], ?_, ?_, ?_, ?_, ?_, ?_⟩ <;> simp [hp]

theorem ConvInv.of_run (hp : t.phase = .run) (hc : t.bcnt = t.written.length)
    (he : t.errcode = 0) (hit : IteratorInv t) (hf : formatOf t.fmt = some f)
    (hpk : PackerInv f t) : ConvInv t := by
  refine ⟨hc, by simp [hp, he], ?_, fun _ => ⟨hit, f, hf, hpk⟩, ?_, ?_, ?_, ?_⟩ <;> simp [hp]

theorem ConvInv.of_flush (hp : t.phase = .flush) (hc : t.bcnt = t.written.length)
    (he : t.errcode = 0) (hit : IteratorInv t) (hn : t.idx = t.env.image.count)
    (hf : formatOf t.fmt = some f) (hpk : PackerInv f t) : ConvInv t := by
  refine ⟨hc, by simp [hp, he], ?_, ?_, fun _ => ⟨hit, hn, f, hf, hpk⟩, ?_, ?_, ?_⟩ <;> simp [hp]

theorem ConvInv.of_close (hp : t.phase = .close) (hc : t.bcnt = t.written.length)
    (he : t.errcode = 0) (hit : IteratorInv t) (hn : t.idx = t.env.image.count) (ha : t.acc = 0)
    (hpd : t.pend = false) (hf : formatOf t.fmt = some f)
    (hw : t.written = pack f t.env.image.pixels) : ConvInv t := by
  refine ⟨hc, by simp [hp, he], ?_, ?_, ?_, fun _ => ⟨hit, hn, ha, hpd, f, hf, hw⟩, ?_, ?_⟩ <;>
    simp [hp]

theorem ConvInv.of_done (hp : t.phase = .done) (hc : t.bcnt = t.written.length)
    (he : t.errcode = 0) (hit : IteratorInv t) (hn : t.idx = t.env.image.count) (ha : t.acc = 0)
    (hpd : t.pend = false) (hw : t.written = pack f t.env.image.pixels) : ConvInv t := by
  refine ⟨hc, by simp [hp, he], ?_, ?_, ?_, ?_, fun _ => ⟨hit, hn, ha, hpd, f, hw⟩, ?_⟩ <;>
    simp [hp]

/-- An error may leave a first part of a stream only when the sink failed (R132). -/
theorem ConvInv.of_err {k : ErrorKind} (hp : t.phase = .err) (hc : t.bcnt = t.written.length)
    (he : t.errcode = errorCode k) (hk : k = .sinkFailure ∨ t.written = [])
    (hw : t.written <+: pack f t.env.image.pixels) : ConvInv t := by
  refine ⟨hc, iff_of_true (he ▸ errorCode_ne_zero k) hp, ?_, ?_, ?_, ?_, ?_,
    fun _ => ⟨hk.imp_left fun h => he.trans (congrArg errorCode h), f, hw⟩⟩ <;> simp [hp]

theorem ConvInv.errcode_eq_zero (h : ConvInv s) (hp : s.phase ≠ .err) : s.errcode = 0 :=
  not_not.1 (mt h.status.1 hp)

/-! Handling one pixel. -/

/-- The wire `N` counts the open image's locations (R93). -/
theorem IteratorInv.pixelCount_eq_count (h : IteratorInv s) : s.pixelCount = s.env.image.count := by
  rw [State.pixelCount_eq, h.width_eq, h.height_eq, Image.count]

/-- The iterator's advance keeps its invariant while pixels are left (R92, R94). -/
theorem IteratorInv.advance (h : IteratorInv s) (hn : s.idx ≠ s.pixelCount) :
    IteratorInv s.advance := by
  obtain ⟨hr, hc⟩ := h.inside hn
  have hle := h.idx_le_pixelCount
  refine ⟨by simpa using h.width_eq, by simpa using h.height_eq, ?_, ?_, ?_, ?_⟩
  · have hflat := h.flat
    rw [State.advance_idx, State.advance_row, State.advance_col, State.advance_width]
    split
    · rw [Nat.succ_mul]; omega
    · omega
  · rw [State.advance_col, State.advance_width]
    split <;> omega
  · rw [State.advance_row, State.advance_height]
    split <;> omega
  · rw [State.advance_idx, State.advance_env, ← h.pixelCount_eq_count]
    omega

/-- One more pixel, emitted, keeps the packer's invariant (R100, R104). -/
theorem PackerInv.of_emits {new : List Byte} (h : PackerInv f s) (hlt : s.idx < s.env.image.count)
    (hem : Emits f (enc f (Sample.ofWord (s.env.image.at s.idx))) s.acc s.pend new t.acc t.pend)
    (hidx : t.idx = s.idx + 1) (hi : t.env.image = s.env.image)
    (hw : t.written = s.written ++ new) : PackerInv f t := by
  rw [h.acc_eq, h.pend_eq] at hem
  have hk := packing_of_emits hem
  rw [← Image.take_pixels_succ hlt, ← h.out_eq, ← hw] at hk
  constructor <;> rw [hi, hidx, hk]

/-- What stands when an emitter is stopped is a first part of the stream (R132). -/
theorem PackerInv.isPrefix_of_emitStops {pre : List Byte} {b : Byte} (h : PackerInv f s)
    (hlt : s.idx < s.env.image.count)
    (hst : EmitStops f (enc f (Sample.ofWord (s.env.image.at s.idx))) s.acc s.pend pre b) :
    s.written ++ pre <+: pack f s.env.image.pixels := by
  rw [h.acc_eq, h.pend_eq] at hst
  have hpre := Machine.isPrefix_of_emitStops hst
  rw [← Image.take_pixels_succ hlt, ← h.out_eq] at hpre
  exact (List.prefix_append _ [b]).trans (hpre.trans (packing_take_isPrefix_pack f _ _))

/-! The three branches of `RUN` (R112). -/

theorem runStep_no_pixel_left (hn : s.idx = s.pixelCount) :
    runStep s = .next (s.setPhase .flush) := if_pos hn

theorem runStep_pixel_left (hn : s.idx ≠ s.pixelCount)
    (hin : s.row < s.env.image.height ∧ s.col < s.env.image.width) :
    ∃ w, runStep s = runOps (pixelOps s.fmt)
      ((s.setEnv (s.env.log (.srcRead s.row s.col w))).latchPx (Sample.ofWord w)) ∧
      w = s.env.image.at (s.row * s.env.image.width + s.col) := by
  refine ⟨_, ?_, rfl⟩
  rw [runStep, if_neg hn, State.srcRead_eq, if_pos hin]

theorem runStep_outside (hn : s.idx ≠ s.pixelCount)
    (hin : ¬(s.row < s.env.image.height ∧ s.col < s.env.image.width)) :
    runStep s = .fault .srcReadOutsideImage := by
  rw [runStep, if_neg hn, State.srcRead_eq, if_neg hin]

/-! The core's steps. -/

/-- With no request made yet, an error leaves no byte (R130). -/
theorem ConvInv.of_err_nothing_written {k : ErrorKind} (hp : t.phase = .err) (hc : t.bcnt = 0)
    (he : t.errcode = errorCode k) (hw : t.written = []) : ConvInv t :=
  .of_err (f := .i8) hp (by rw [hc, hw]; rfl) he (.inr hw) (hw ▸ List.nil_prefix)

/-- `CHECK` accepts no byte, so what `START` established stands: nothing packed, the iterator at the
first pixel of the image it opened (R111, R94). -/
theorem checkStep_keeps_convInv (hi : ConvInv s) (hp : s.phase = .check)
    (h : checkStep s = .next t) : ConvInv t := by
  obtain ⟨hrow, hcol, hidx, hacc, hpd, hw⟩ := hi.fresh hp
  have hc : s.bcnt = 0 := hi.count.trans (congrArg List.length hw)
  have hwritten {u : State} {evs : List Event} (hev : u.env.events = s.env.events ++ evs)
      (hno : evs.filterMap Event.acceptedByte = []) : u.written = [] := by
    rw [State.written_append hev, hw, hno]; rfl
  rcases checkStep_cases s with ⟨-, hs⟩ | ⟨-, -, e, hev, hs⟩ | ⟨-, -, e, hev, -, hs⟩ |
    ⟨f, hf, e, hev, -, hs⟩ <;> cases hs.symm.trans h
  · exact .of_err_nothing_written (k := .invalidFormat) rfl hc rfl hw
  · exact .of_err_nothing_written (k := .sourceUnavailable) rfl hc rfl (hwritten hev.events rfl)
  · exact .of_err_nothing_written (k := .sinkFailure) rfl hc rfl (hwritten hev rfl)
  · have hnone := hwritten (u := { s with
      phase := .run, width := e.image.width, height := e.image.height, env := e }) hev rfl
    refine .of_run rfl (hc.trans (congrArg List.length hnone).symm)
      (hi.errcode_eq_zero (by simp [hp])) ⟨rfl, rfl, ?_, ?_, ?_, ?_⟩ hf ⟨hnone.trans ?_, ?_, ?_⟩
    all_goals simp [hrow, hcol, hidx, hacc, hpd, packing, Packing.empty]

/-- `RUN` handles the pixel at `IDX`: it packs it whole and moves on, stops inside it at a refused byte,
or finds none left (R112). -/
theorem runStep_keeps_convInv (hi : ConvInv s) (hp : s.phase = .run) (h : runStep s = .next t) :
    ConvInv t := by
  obtain ⟨hit, f, hf, hpk⟩ := hi.running hp
  have herr := hi.errcode_eq_zero (by simp [hp])
  have hN := hit.pixelCount_eq_count
  by_cases hn : s.idx = s.pixelCount
  · cases (runStep_no_pixel_left hn).symm.trans h
    exact .of_flush rfl hi.count herr { hit with } (hn.trans hN) hf { hpk with }
  · obtain ⟨hr, hc⟩ := hit.inside hn
    have hlt : s.idx < s.env.image.count := hN ▸ lt_of_le_of_ne hit.idx_le_pixelCount hn
    have hflat : s.row * s.env.image.width + s.col = s.idx := by rw [← hit.width_eq, hit.flat]
    obtain ⟨w, px, sum, int, a1, rfl, rfl, hs⟩ :=
      runStep_cases hp hf hn (hit.height_eq ▸ hr) (hit.width_eq ▸ hc)
    rw [hflat] at hs
    rcases hs with ⟨new, acc, pend, e, hem, hev, hs⟩ | ⟨pre, b, e, hst, hev, hs⟩ <;>
      cases hs.symm.trans h
    · have hwt {u : State} (hu : u.env = e) : u.written = s.written ++ new :=
        hev.written (by simp [List.filterMap_cons, Event.acceptedByte]) hu
      refine .of_run (by simpa using hp) ?_ (by simpa using herr)
        (.advance { hit.setEnv hev.image with } hn) (by simpa using hf)
        (hpk.of_emits hlt (by simpa using hem) (by simp) (by simpa using hev.image)
          (hwt (by simp)))
      rw [hwt (by simp), List.length_append, ← hi.count, State.advance_bcnt]
    · have hwt {u : State} (hu : u.env = e) : u.written = s.written ++ pre :=
        hev.written (by simp [List.filterMap_cons, Event.acceptedByte]) hu
      refine .of_err (k := .sinkFailure) (f := f) rfl ?_ rfl (.inl rfl) ?_
      · rw [hwt rfl, List.length_append, ← hi.count]
      · rw [hwt rfl, hev.image]
        exact hpk.isPrefix_of_emitStops hlt hst

/-- With no nibble held at the end the bytes out are the whole stream (R100). -/
theorem pack_of_not_pend {ps : List Sample} (h : (packing f ps).pend = false) :
    pack f ps = (packing f ps).out := by
  simp [pack, h]

/-- A nibble held at the end is the stream's last byte (R98, R100). -/
theorem pack_of_pend {ps : List Sample} (h : (packing f ps).pend = true) :
    pack f ps = (packing f ps).out ++ [(packing f ps).acc] := by
  simp [pack, h]

/-- `FLUSH` completes the stream: it was whole, or the held nibble is its last byte (R113, R98). -/
theorem flushStep_keeps_convInv (hi : ConvInv s) (hp : s.phase = .flush)
    (h : flushStep s = .next t) : ConvInv t := by
  obtain ⟨hit, hn, f, hf, hout, hacc, hpend⟩ := hi.flushing hp
  have herr := hi.errcode_eq_zero (by simp [hp])
  rw [hn, ← Image.pixels_length, List.take_length] at hout hacc hpend
  rcases flushStep_cases hp with ⟨hpd, hs⟩ | ⟨hpd, e, hev, hs⟩ | ⟨hpd, e, hev, hs⟩ <;>
    cases hs.symm.trans h <;> rw [hpd] at hpend
  · have hzero := hacc.trans (packing_acc_of_not_pend f _ hpend.symm)
    exact .of_close rfl hi.count herr { hit with } hn hzero hpd hf
      (hout.trans (pack_of_not_pend hpend.symm).symm)
  · have hwt {u : State} (hu : u.env = e) : u.written = s.written ++ [s.acc] :=
      hev.written rfl hu
    refine .of_close rfl ?_ herr { hit.setEnv hev.image with } ?_ rfl rfl hf ?_
    · rw [hwt rfl, List.length_append, ← hi.count]; rfl
    · exact hn.trans (congrArg Image.count hev.image.symm)
    · rw [hwt rfl, hout, hacc, ← pack_of_pend hpend.symm, ← hev.image]
  · have hwt {u : State} (hu : u.env = e) : u.written = s.written :=
      hev.written_same rfl hu
    refine .of_err (k := .sinkFailure) (f := f) rfl ?_ rfl (.inl rfl) ?_
    · rw [hwt rfl, ← hi.count]
    · rw [hwt rfl, hout, hev.image]
      exact packing_out_isPrefix_pack f _

/-- `CLOSE` accepts no byte, so the stream stands as it is, whole (R114, R120). -/
theorem closeStep_keeps_convInv (hi : ConvInv s) (hp : s.phase = .close)
    (h : closeStep s = .next t) : ConvInv t := by
  obtain ⟨hit, hn, hacc, hpd, f, -, hw⟩ := hi.closing hp
  have herr := hi.errcode_eq_zero (by simp [hp])
  rcases closeStep_cases s with ⟨e, hev, hs⟩ | ⟨e, hev, hs⟩ <;> cases hs.symm.trans h <;>
    have hwt {u : State} (hu : u.env = e) : u.written = s.written :=
      hev.written_same rfl hu
  · refine .of_done (f := f) rfl ?_ herr { hit.setEnv hev.image with } ?_ hacc hpd ?_
    · rw [hwt rfl, ← hi.count]
    · exact hn.trans (congrArg Image.count hev.image.symm)
    · rw [hwt rfl, hw, hev.image]
  · refine .of_err (k := .sinkFailure) (f := f) rfl ?_ rfl (.inl rfl) ?_
    · rw [hwt rfl, ← hi.count]
    · rw [hwt rfl, hw, hev.image]

theorem coreStep_keeps_convInv (hi : ConvInv s) (h : coreStep s = .next t) : ConvInv t := by
  cases hp : s.phase <;> simp only [coreStep, hp] at h
  case check => exact checkStep_keeps_convInv hi hp h
  case run => exact runStep_keeps_convInv hi hp h
  case flush => exact flushStep_keeps_convInv hi hp h
  case close => exact closeStep_keeps_convInv hi hp h
  all_goals cases h; exact hi

/-! The moves of the host. -/

theorem exec_start_of_busy (h : s.phase.busy = true) : exec .start s = .next s := if_pos h

theorem exec_start_of_not_busy (h : s.phase.busy = false) : exec .start s = .next s.beginRun :=
  if_neg (by simp [h])

/-- A write to `CTRL` is `START` or no command, by bit 0 (R65). -/
theorem hostWrite_ctrl (s : State) (w : Nat) :
    hostWrite 1 w s = if w % 2 = 1 then exec .start s else .next s := by
  rw [hostWrite, decodeCtrl, Nat.testBit_zero]
  by_cases h : w % 2 = 1
  · rw [if_pos (decide_eq_true h), if_pos h]
  · rw [if_neg (by simpa using h), if_neg h]
    rfl

/-- Everything a host write can do: nothing, at rest a new code in `FMT`, or an accepted `START` (R24). -/
theorem hostWrite_cases {reg word : Nat} (h : hostWrite reg word s = .next t) :
    t = s ∨ (s.phase.busy = false ∧ t = s.setFmt (fmtField word)) ∨ t = s.beginRun := by
  unfold hostWrite at h
  split at h
  · cases h
    unfold State.writeFmt
    split
    · exact .inl rfl
    · exact .inr (.inl ⟨Bool.eq_false_of_not_eq_true ‹_›, rfl⟩)
  · rw [show exec (decodeCtrl word) s = _ from hostWrite_ctrl s word] at h
    split at h
    · cases hb : s.phase.busy with
      | true => cases (exec_start_of_busy hb).symm.trans h; exact .inl rfl
      | false => cases (exec_start_of_not_busy hb).symm.trans h; exact .inr (.inr rfl)
    · cases h; exact .inl rfl
  · cases h; exact .inl rfl

/-- At rest the invariant says nothing of `FMT`, which the host may write (R11, R116). -/
theorem ConvInv.setFmt (hi : ConvInv s) (hb : s.phase.busy = false) (c : FmtCode) :
    ConvInv (s.setFmt c) := by
  have hrest {p : Phase} (hp : s.phase = p) : p.busy = false := hp ▸ hb
  exact { hi with
    running := fun hp => nomatch hrest hp
    flushing := fun hp => nomatch hrest hp
    closing := fun hp => nomatch hrest hp
    completed := fun hp => (hi.completed hp).imp_left fun hit => { hit with } }

theorem ConvInv.beginRun (s : State) : ConvInv s.beginRun := by
  refine ⟨rfl, by simp, fun _ => ⟨rfl, rfl, rfl, rfl, rfl, rfl⟩, ?_, ?_, ?_, ?_, ?_⟩ <;> simp

theorem hostWrite_keeps_convInv {reg word : Nat} (hi : ConvInv s)
    (h : hostWrite reg word s = .next t) : ConvInv t := by
  rcases hostWrite_cases h with rfl | ⟨hb, rfl⟩ | rfl
  · exact hi
  · exact hi.setFmt hb _
  · exact .beginRun s

theorem moveStep_keeps_convInv {m : Move} (hi : ConvInv s) (h : moveStep m s = .next t) :
    ConvInv t := by
  cases m with
  | core => exact coreStep_keeps_convInv hi h
  | write reg word => exact hostWrite_keeps_convInv hi h
  | read reg => cases h; exact hi.setEnv rfl rfl
  | reset => cases h; exact .of_idle rfl rfl rfl
  | sink content =>
    rw [moveStep] at h
    split at h <;> cases h
    exact hi.setEnv rfl rfl

/-- Settles O48, by the kind of move, and for the core's own step by its phase: `RUN` packs one pixel
more or stops inside one, `FLUSH` completes the stream, no other step accepts a byte. -/
theorem stepKeepsConversionInvariant : Obligations.StepKeepsConversionInvariant := by
  intro s t hi h
  obtain ⟨m, ms, hm⟩ := step_eq_moveStep s
  exact moveStep_keeps_convInv (hi.setMoves ms) (hm.symm.trans h)

end Sys2Proof.Machine

namespace Sys2Proof.Machine

variable {s t u : State}

/-! What a step can do to the dimensions and the open image (R15). -/

/-- Dimensions and open image are the same. -/
structure SameImage (s t : State) : Prop where
  width : t.width = s.width
  height : t.height = s.height
  image : t.env.image = s.env.image

theorem SameImage.refl (s : State) : SameImage s s := ⟨rfl, rfl, rfl⟩

theorem SameImage.trans (h : SameImage s t) (h' : SameImage t u) : SameImage s u :=
  ⟨h'.width.trans h.width, h'.height.trans h.height, h'.image.trans h.image⟩

theorem put_sameImage (b : Byte) (s : State) : SameImage s (put b s).state := by
  rcases put_wrote b s with ⟨e, h, hw⟩ | ⟨e, h, hw⟩ <;> rw [h] <;> exact ⟨rfl, rfl, hw.image⟩

/-- No instruction writes a dimension or opens an image. -/
theorem exec_sameImage {i : Instr} (h : exec i s = .next t) : SameImage s t := by
  have hput (b : Byte) (k : State → Flow) (hk : ∀ t, SameImage t (k t).state) :
      SameImage s ((put b s).andThen k).state := by
    have hs := put_sameImage b s
    cases hf : put b s <;> rw [hf] at hs
    · exact hs.trans (hk _)
    · exact hs
  cases i with
  | start =>
    change execStart s = _ at h
    unfold execStart at h
    split at h <;> cases h <;> exact ⟨rfl, rfl, rfl⟩
  | emit16 => cases h; exact hput _ _ (put_sameImage _)
  | emit8 => cases h; exact put_sameImage _ s
  | emit4 =>
    change execEmit4 s = _ at h
    unfold execEmit4 at h
    split at h <;> cases h
    · exact hput _ _ fun t => ⟨rfl, rfl, rfl⟩
    · exact ⟨rfl, rfl, rfl⟩
  | flush4 =>
    change execFlush4 s = _ at h
    unfold execFlush4 at h
    split at h <;> cases h
    · exact hput _ _ fun t => ⟨rfl, rfl, rfl⟩
    · exact .refl s
  | next => cases h; exact ⟨by simp, by simp, by simp⟩
  | _ => cases h; exact ⟨rfl, rfl, rfl⟩

theorem runOps_sameImage {ops : List Instr} (h : runOps ops s = .next t) : SameImage s t := by
  induction ops generalizing s with
  | nil => cases h; exact .refl _
  | cons i rest ih =>
    obtain ⟨u, hu⟩ := exec_next i s
    have hsu := exec_sameImage hu
    rw [runOps, hu] at h
    by_cases hp : u.phase = .err
    · rw [unlessRaised_next_of_err _ hp] at h
      cases h
      exact hsu
    · rw [unlessRaised_next_of_ne _ hp] at h
      exact hsu.trans (ih h)

theorem runStep_sameImage (h : runStep s = .next t) : SameImage s t := by
  by_cases hn : s.idx = s.pixelCount
  · cases (runStep_no_pixel_left hn).symm.trans h
    exact ⟨rfl, rfl, rfl⟩
  · by_cases hin : s.row < s.env.image.height ∧ s.col < s.env.image.width
    · obtain ⟨w, hw, -⟩ := runStep_pixel_left hn hin
      have hrest := runOps_sameImage (hw.symm.trans h)
      exact ⟨hrest.width, hrest.height, hrest.image⟩
    · cases (runStep_outside hn hin).symm.trans h

theorem flushStep_sameImage (hp : s.phase = .flush) (h : flushStep s = .next t) : SameImage s t := by
  rcases flushStep_cases hp with ⟨-, hs⟩ | ⟨-, e, hw, hs⟩ | ⟨-, e, hw, hs⟩ <;> cases hs.symm.trans h
  · exact ⟨rfl, rfl, rfl⟩
  · exact ⟨rfl, rfl, hw.image⟩
  · exact ⟨rfl, rfl, hw.image⟩

theorem closeStep_sameImage (h : closeStep s = .next t) : SameImage s t := by
  rcases closeStep_cases s with ⟨e, hw, hs⟩ | ⟨e, hw, hs⟩ <;> cases hs.symm.trans h <;>
    exact ⟨rfl, rfl, hw.image⟩

/-- The dimensions are those of an answer to `SrcOpen` in the record. -/
def State.DimsAnswered (s : State) : Prop :=
  .srcOpen (some (s.width, s.height)) ∈ s.env.events

theorem checkStep_dims (h : checkStep s = .next t) : SameImage s t ∨ t.DimsAnswered := by
  rcases checkStep_cases s with ⟨-, hs⟩ | ⟨-, -, e, hw, hs⟩ | ⟨-, -, e, hev, -, hs⟩ |
    ⟨-, -, e, hev, -, hs⟩ <;> cases hs.symm.trans h
  · exact .inl ⟨rfl, rfl, rfl⟩
  · exact .inl ⟨rfl, rfl, hw.image⟩
  all_goals exact .inr (by simp [State.DimsAnswered, hev])

/-- The core opens an image and writes the dimensions in `CHECK` only (R15, R111). -/
theorem coreStep_dims (h : coreStep s = .next t) :
    SameImage s t ∨ (s.phase = .check ∧ t.DimsAnswered) := by
  cases hp : s.phase <;> simp only [coreStep, hp] at h
  case check => exact (checkStep_dims h).imp_right fun hd => ⟨rfl, hd⟩
  case run => exact .inl (runStep_sameImage h)
  case flush => exact .inl (flushStep_sameImage hp h)
  case close => exact .inl (closeStep_sameImage h)
  all_goals cases h; exact .inl (.refl s)

theorem hostWrite_sameImage {reg word : Nat} (h : hostWrite reg word s = .next t) :
    SameImage s t := by
  rcases hostWrite_cases h with rfl | ⟨-, rfl⟩ | rfl <;> exact ⟨rfl, rfl, rfl⟩

/-- A move other than reset changes dimensions or image only as the core's `CHECK` step does (R15). -/
theorem moveStep_dims {m : Move} (hm : m ≠ .reset) (h : moveStep m s = .next t) :
    SameImage s t ∨ (s.phase = .check ∧ t.DimsAnswered) := by
  cases m with
  | core => exact coreStep_dims h
  | write reg word => exact .inl (hostWrite_sameImage h)
  | read reg => cases h; exact .inl ⟨rfl, rfl, rfl⟩
  | reset => exact absurd rfl hm
  | sink content =>
    rw [moveStep] at h
    split at h <;> cases h
    exact .inl ⟨rfl, rfl, rfl⟩

/-- A step that is no reset is made by a move that is none. -/
theorem step_dims (hr : ∀ rest, s.env.moves ≠ .reset :: rest) (h : step s = .next t) :
    SameImage s t ∨ (s.phase = .check ∧ t.DimsAnswered) := by
  cases hm : s.env.moves with
  | nil => exact coreStep_dims ((step_noMoves hm).symm.trans h)
  | cons m rest =>
    rw [step_move hm] at h
    have hne : m ≠ .reset := fun he => hr rest (he ▸ hm)
    exact (moveStep_dims hne h).imp_left fun hs => ⟨hs.width, hs.height, hs.image⟩

/-- Settles O39: only a `CHECK` step whose source answers, or a reset, touches the dimensions, and what
it records is the answer they take (R15). -/
theorem dimensionsAreLatchedInCheckOnly : Obligations.DimensionsAreLatchedInCheckOnly := by
  refine ⟨fun s t h => ?_, fun s t hm hp h w ht a hev => ?_⟩
  · by_cases hr : ∃ rest, s.env.moves = .reset :: rest
    · obtain ⟨rest, hr⟩ := hr
      rw [step_move hr] at h
      cases h
      exact ⟨fun _ => .inr ⟨rest, hr⟩, fun hne => absurd rfl hne⟩
    · rcases step_dims (not_exists.1 hr) h with hs | ⟨hp, hd⟩
      · exact ⟨fun hne => absurd hne (by simp [hs.width, hs.height]),
          fun hne => absurd hs.image hne⟩
      · exact ⟨fun _ => .inl ⟨hp, hd⟩, fun _ => hp⟩
  · rw [step_noMoves hm, coreStep, hp] at h
    rcases checkStep_cases s with ⟨-, hs⟩ | ⟨-, -, e, hw, hs⟩ | ⟨-, -, e, he, -, hs⟩ |
      ⟨-, -, e, he, -, hs⟩ <;> cases hs.symm.trans h
    · simp at hev
    · simp [show e.events = _ from hw.events] at hev
    all_goals
      simp only [he, List.append_cancel_left_eq, List.cons.injEq, Event.srcOpen.injEq,
        Option.some.injEq, Prod.mk.injEq] at hev
      exact hev.1

end Sys2Proof.Machine

namespace Sys2Proof.Machine

variable {s : State} {px : Sample} {sum : BitVec 10} {int : Byte} {a1 : BitVec 1} {bg : Group}

/-! The latch and the wires carry nothing from one step to the next (R19, R20). -/

@[simp] theorem State.withScratch_fmt : (s.withScratch px sum int a1 bg).fmt = s.fmt := rfl
@[simp] theorem State.withScratch_phase : (s.withScratch px sum int a1 bg).phase = s.phase := rfl
@[simp] theorem State.withScratch_errcode : (s.withScratch px sum int a1 bg).errcode = s.errcode := rfl
@[simp] theorem State.withScratch_width : (s.withScratch px sum int a1 bg).width = s.width := rfl
@[simp] theorem State.withScratch_height : (s.withScratch px sum int a1 bg).height = s.height := rfl
@[simp] theorem State.withScratch_row : (s.withScratch px sum int a1 bg).row = s.row := rfl
@[simp] theorem State.withScratch_col : (s.withScratch px sum int a1 bg).col = s.col := rfl
@[simp] theorem State.withScratch_idx : (s.withScratch px sum int a1 bg).idx = s.idx := rfl
@[simp] theorem State.withScratch_bcnt : (s.withScratch px sum int a1 bg).bcnt = s.bcnt := rfl
@[simp] theorem State.withScratch_acc : (s.withScratch px sum int a1 bg).acc = s.acc := rfl
@[simp] theorem State.withScratch_pend : (s.withScratch px sum int a1 bg).pend = s.pend := rfl
@[simp] theorem State.withScratch_env : (s.withScratch px sum int a1 bg).env = s.env := rfl
@[simp] theorem State.withScratch_pixelCount :
    (s.withScratch px sum int a1 bg).pixelCount = s.pixelCount := rfl

@[simp] theorem visibleOutcome_withScratch :
    visibleOutcome (.next (s.withScratch px sum int a1 bg)) = visibleOutcome (.next s) := rfl

/-- The state a piece of a step ends in, mapped. -/
def Flow.map (g : State → State) : Flow → Flow
  | .goesOn s => .goesOn (g s)
  | .raised s => .raised (g s)

theorem Flow.map_state (g : State → State) (f : Flow) : (f.map g).state = g f.state := by
  cases f <;> rfl

theorem Flow.map_andThen {g : State → State} {k : State → Flow} (hk : ∀ s, k (g s) = (k s).map g)
    (f : Flow) : (f.map g).andThen k = (f.andThen k).map g := by
  cases f with
  | goesOn s => exact hk s
  | raised s => rfl

/-- `put` neither reads nor writes them. -/
theorem put_withScratch (b : Byte) (s : State) :
    put b (s.withScratch px sum int a1 bg) =
      (put b s).map (·.withScratch px sum int a1 bg) := by
  unfold put State.sinkWrite
  rw [State.withScratch_env]
  obtain ⟨a, rest, n⟩ := draw s.env.writeAns Config.freeWrite s.env.draws
  cases a <;> rfl

/-- An emitter reads `BG` and none of the others, and writes none. -/
theorem exec_emitter_withScratch (c : WidthClass) (s : State) :
    ∃ t, exec c.emitter s = .next t ∧
      exec c.emitter (s.withScratch px sum int a1 s.bg) =
        .next (t.withScratch px sum int a1 s.bg) := by
  cases c with
  | w16 =>
    refine ⟨_, rfl, congrArg Host.Outcome.next ?_⟩
    rw [put_withScratch, Flow.map_andThen (put_withScratch _), Flow.map_state]
    rfl
  | w8 =>
    refine ⟨_, rfl, congrArg Host.Outcome.next ?_⟩
    rw [put_withScratch, Flow.map_state]
    rfl
  | w4 =>
    change ∃ t, execEmit4 s = .next t ∧ execEmit4 (s.withScratch px sum int a1 s.bg) = _
    unfold execEmit4
    cases hp : s.pend with
    | true =>
      refine ⟨_, if_pos rfl, (if_pos hp).trans (congrArg Host.Outcome.next ?_)⟩
      rw [put_withScratch, Flow.map_andThen (fun _ => rfl), Flow.map_state]
      rfl
    | false =>
      exact ⟨_, if_neg Bool.false_ne_true, if_neg (by simp [hp])⟩

/-- `FLUSH4` reads and writes none of them. -/
theorem exec_flush4_withScratch (s : State) :
    ∃ t, exec .flush4 s = .next t ∧
      exec .flush4 (s.withScratch px sum int a1 bg) = .next (t.withScratch px sum int a1 bg) := by
  change ∃ t, execFlush4 s = .next t ∧ execFlush4 (s.withScratch px sum int a1 bg) = _
  unfold execFlush4
  cases hp : s.pend with
  | true =>
    refine ⟨_, if_pos rfl, (if_pos hp).trans (congrArg Host.Outcome.next ?_)⟩
    rw [put_withScratch, Flow.map_andThen (fun _ => rfl), Flow.map_state]
    rfl
  | false => exact ⟨_, if_neg Bool.false_ne_true, if_neg (by simp [hp])⟩

theorem advance_withScratch (s : State) :
    (s.withScratch px sum int a1 bg).advance = s.advance.withScratch px sum int a1 bg := by
  unfold State.advance
  rw [apply_ite (State.withScratch · px sum int a1 bg)]
  rfl

theorem runOps_next (s : State) : runOps [.next] s = .next s.advance := by
  rw [runOps]
  exact ite_self _

/-- What follows a piece of a step shows the same when it does so from either state. -/
theorem unlessRaised_visible {k : State → Host.Outcome State Fault Refusal}
    (hk : visibleOutcome (k (s.withScratch px sum int a1 bg)) = visibleOutcome (k s)) :
    visibleOutcome (unlessRaised (.next (s.withScratch px sum int a1 bg)) k) =
      visibleOutcome (unlessRaised (.next s) k) := by
  by_cases hp : s.phase = .err <;> simp [unlessRaised, hp, hk]

theorem runOps_emitter_visible (c : WidthClass) (s : State) :
    visibleOutcome (runOps [c.emitter, .next] (s.withScratch px sum int a1 s.bg)) =
      visibleOutcome (runOps [c.emitter, .next] s) := by
  obtain ⟨t, ht, ht'⟩ := exec_emitter_withScratch (px := px) (sum := sum) (int := int) (a1 := a1) c s
  rw [runOps, runOps, ht, ht']
  refine unlessRaised_visible ?_
  rw [runOps_next, runOps_next, advance_withScratch, visibleOutcome_withScratch]

theorem exec_decodeFmt_reserved {c : FmtCode} (hc : formatOf c = none) (s : State) :
    exec (decodeFmt c) s = .next (s.raise .invalidFormat) := by
  rw [decodeFmt, hc]
  dsimp only
  split
  · rfl
  · split <;> rfl

theorem pixelOps_reserved {c : FmtCode} (hc : formatOf c = none) : pixelOps c = [decodeFmt c] := by
  rw [pixelOps, decodeInternal, hc]

/-- A pixel's operations start from the sample latched: the encoder drives `BG` from it before the
emitter reads `BG` (R75, R112). -/
theorem runOps_pixel_visible (c : FmtCode) (p : Sample) (s : State) :
    visibleOutcome (runOps (pixelOps c) ((s.withScratch px sum int a1 bg).latchPx p)) =
      visibleOutcome (runOps (pixelOps c) (s.latchPx p)) := by
  cases hc : formatOf c with
  | none =>
    rw [pixelOps_reserved hc, runOps, runOps, exec_decodeFmt_reserved hc,
      exec_decodeFmt_reserved hc]
    rfl
  | some f =>
    obtain ⟨sum₁, int₁, b₁, h₁⟩ := exec_encoder f (s.latchPx p)
    obtain ⟨sum₂, int₂, b₂, h₂⟩ := exec_encoder f ((s.withScratch px sum int a1 bg).latchPx p)
    rw [pixelOps_of_formatOf hc, runOps, runOps, h₁, h₂]
    exact unlessRaised_visible (px := p) (sum := sum₂) (int := int₂) (a1 := b₂)
      (s := { s.latchPx p with sum := sum₁, int := int₁, a1 := b₁, bg := enc f p })
      (runOps_emitter_visible f.widthClass _)

theorem runStep_visible (s : State) :
    visibleOutcome (runStep (s.withScratch px sum int a1 bg)) = visibleOutcome (runStep s) := by
  by_cases hn : s.idx = s.pixelCount
  · rw [runStep_no_pixel_left hn, runStep_no_pixel_left (s := s.withScratch px sum int a1 bg) hn]
    rfl
  · by_cases hin : s.row < s.env.image.height ∧ s.col < s.env.image.width
    · obtain ⟨w, h, hw⟩ := runStep_pixel_left hn hin
      obtain ⟨w', h', hw'⟩ := runStep_pixel_left (s := s.withScratch px sum int a1 bg) hn hin
      obtain rfl : w' = w := hw'.trans hw.symm
      rw [h, h']
      exact runOps_pixel_visible s.fmt _ (s.setEnv (s.env.log (.srcRead s.row s.col w')))
    · rw [runStep_outside hn hin, runStep_outside (s := s.withScratch px sum int a1 bg) hn hin]

theorem openPorts_withScratch (s : State) :
    openPorts (s.withScratch px sum int a1 bg) = (openPorts s).withScratch px sum int a1 bg := by
  unfold openPorts State.srcOpen
  rw [State.withScratch_env]
  obtain ⟨o, e⟩ := s.env.drawSource
  cases o with
  | none => rfl
  | some img =>
    dsimp only [State.sinkReady, State.setDims, State.setEnv, State.withScratch]
    obtain ⟨a, rest, n⟩ := draw (Env.readyAns _) Config.freeReady (Env.draws _)
    cases a <;> rfl

theorem checkStep_visible (s : State) :
    visibleOutcome (checkStep (s.withScratch px sum int a1 bg)) = visibleOutcome (checkStep s) := by
  unfold checkStep
  rw [State.withScratch_fmt]
  cases hf : formatOf s.fmt with
  | none =>
    dsimp only
    rw [exec_decodeFmt_reserved hf, exec_decodeFmt_reserved hf]
    rfl
  | some f =>
    dsimp only
    rw [openPorts_withScratch, visibleOutcome_withScratch]

theorem flushStep_visible (s : State) :
    visibleOutcome (flushStep (s.withScratch px sum int a1 bg)) = visibleOutcome (flushStep s) := by
  obtain ⟨t, ht, ht'⟩ :=
    exec_flush4_withScratch (px := px) (sum := sum) (int := int) (a1 := a1) (bg := bg) s
  rw [flushStep, flushStep, ht, ht']
  exact unlessRaised_visible rfl

theorem closeStep_visible (s : State) :
    visibleOutcome (closeStep (s.withScratch px sum int a1 bg)) = visibleOutcome (closeStep s) := by
  unfold closeStep State.sinkClose
  rw [State.withScratch_env]
  obtain ⟨a, rest, n⟩ := draw s.env.closeAns Config.freeClose s.env.draws
  cases a <;> rfl

theorem coreStep_visible (s : State) :
    visibleOutcome (coreStep (s.withScratch px sum int a1 bg)) = visibleOutcome (coreStep s) := by
  cases hp : s.phase <;> simp only [coreStep, State.withScratch_phase, hp]
  case check => exact checkStep_visible s
  case run => exact runStep_visible s
  case flush => exact flushStep_visible s
  case close => exact closeStep_visible s
  all_goals rfl

theorem exec_start_visible (s : State) :
    visibleOutcome (exec .start (s.withScratch px sum int a1 bg)) =
      visibleOutcome (exec .start s) := by
  change visibleOutcome (execStart _) = visibleOutcome (execStart s)
  rw [execStart, execStart, apply_ite visibleOutcome, apply_ite visibleOutcome]
  rfl

theorem writeFmt_withScratch (w : Nat) (s : State) :
    (s.withScratch px sum int a1 bg).writeFmt w =
      (s.writeFmt w).withScratch px sum int a1 bg := by
  unfold State.writeFmt
  rw [apply_ite (State.withScratch · px sum int a1 bg)]
  rfl

theorem hostWrite_visible (reg word : Nat) (s : State) :
    visibleOutcome (hostWrite reg word (s.withScratch px sum int a1 bg)) =
      visibleOutcome (hostWrite reg word s) := by
  unfold hostWrite
  split
  · rw [writeFmt_withScratch, visibleOutcome_withScratch]
  · unfold decodeCtrl
    split
    · exact exec_start_visible s
    · rfl
  · rfl

theorem moveStep_visible (m : Move) (s : State) :
    visibleOutcome (moveStep m (s.withScratch px sum int a1 bg)) =
      visibleOutcome (moveStep m s) := by
  cases m with
  | core => exact coreStep_visible s
  | write reg word => exact hostWrite_visible reg word s
  | read reg => rfl
  | reset => rfl
  | sink content =>
    rw [moveStep, moveStep, apply_ite visibleOutcome, apply_ite visibleOutcome]
    rfl

/-- Settles O42, by the kind of move, and for the core's own step by its phase: only `RUN` reads the
latch and the wires, and it latches and drives them first (R19, R20). -/
theorem latchAndWiresCarryNothing : Obligations.LatchAndWiresCarryNothing := by
  intro s px sum int a1 bg
  cases hm : s.env.moves with
  | nil =>
    rw [step_noMoves hm, step_noMoves (s := s.withScratch px sum int a1 bg) hm]
    exact coreStep_visible s
  | cons m rest =>
    rw [step_move hm, step_move (s := s.withScratch px sum int a1 bg) hm]
    exact moveStep_visible m (s.setEnv { s.env with moves := rest })

end Sys2Proof.Machine

namespace Sys2Proof.Machine

variable {s : State}

/-! An accepted `START` (R27). -/

/-- What an accepted `START` leaves to be seen depends on `FMT`, `WIDTH`, `HEIGHT` and the environment
without its record. -/
theorem State.beginRun_visible (s : State) :
    s.beginRun.visible = { State.reset with
      fmt := s.fmt, phase := .check, width := s.width, height := s.height,
      env := { s.env with events := [] } } := rfl

/-- Settles O43: after `START` both states show what the registers named have in common (R27). -/
theorem startForgetsEarlierConversions : Obligations.StartForgetsEarlierConversions := by
  intro s₁ s₂ hb₁ hb₂ hf hw hh he
  rw [exec_start_of_not_busy hb₁, exec_start_of_not_busy hb₂]
  refine congrArg Host.Outcome.next ?_
  rw [State.beginRun_visible, State.beginRun_visible, hf, hw, hh, he]

/-! The counters while pixels are handled (R21, R94). -/

/-- With every pixel of a non-empty row handled the iterator stands at the start of the row past the
last (R94). -/
theorem IteratorInv.at_end (h : IteratorInv s) (hn : s.idx = s.pixelCount) (hw : 0 < s.width) :
    s.row = s.height ∧ s.col = 0 := by
  have hflat : s.row * s.width + s.col = s.height * s.width := by
    rw [← h.flat, hn, State.pixelCount_eq, Nat.mul_comm]
  have hcol := h.col_lt hw
  have hrow : s.row = s.height := by
    refine h.row_le.antisymm (Nat.le_of_lt_succ (Nat.lt_of_mul_lt_mul_right (a := s.width) ?_))
    rw [Nat.succ_mul]
    omega
  rw [hrow] at hflat
  exact ⟨hrow, by omega⟩

/-- Settles O59: the iterator's invariant bounds `ROW`, `COL` and `IDX`, the packer's bounds `BCNT` by
twice `IDX` (R21, R94). -/
theorem countersCannotOverflow : Obligations.CountersCannotOverflow := by
  intro d s hi hp hw hh
  obtain ⟨hit, f, -, hpk⟩ := hi.running hp
  have hle : s.idx ≤ s.width * s.height := hit.idx_le_pixelCount
  have hN := mul_lt_two_pow hw hh
  have hb : s.bcnt ≤ 2 * s.idx := hi.count ▸ hpk.written_le
  refine ⟨hit.inside, hit.at_end, hle, hN, by omega, ?_⟩
  rw [Nat.pow_succ]
  omega

/-! The register space, reset and `CTRL.NONE`. -/

/-- Settles O23: the row has no effect (R12). -/
theorem ctrlNoneChangesNothing : Obligations.CtrlNoneChangesNothing :=
  fun _ => rfl

theorem State.status_toNat (s : State) :
    s.status.toNat = 4 * s.errcode.toNat + s.phase.code.toNat := by
  have hlt := s.phase.code.isLt
  rw [State.status, BitVec.toNat_append, ← Nat.shiftLeft_add_eq_or_of_lt hlt, Nat.shiftLeft_eq,
    Nat.mul_comm]

theorem State.readReg_above (s : State) {n : Nat} (h : 6 < n) : s.readReg n = 0 := by
  obtain ⟨k, rfl⟩ := Nat.exists_eq_add_of_le' h
  rfl

theorem Phase.busy_iff (p : Phase) :
    p.busy = true ↔ p = .check ∨ p = .run ∨ p = .flush ∨ p = .close := by
  cases p <;> decide

/-- Settles O35, clause by clause of the table (R24). -/
theorem registerSpaceIsTheTable : Obligations.RegisterSpaceIsTheTable := by
  refine ⟨fun _ _ => rfl, fun s => ⟨rfl, rfl, ?_, rfl, rfl, rfl, rfl, fun n => s.readReg_above⟩,
    fun s w => ⟨fun hb => ?_, fun hb => ?_, fun hw => ?_, fun hw => ?_, fun n hn => ?_⟩,
    Phase.busy_iff, by decide⟩
  · refine s.status_toNat.trans ?_
    cases s.phase <;> rfl
  · exact congrArg Host.Outcome.next (if_neg (by simp [hb]))
  · exact congrArg Host.Outcome.next (if_pos hb)
  · exact (hostWrite_ctrl s w).trans (if_pos hw)
  · exact (hostWrite_ctrl s w).trans (if_neg (by omega))
  · obtain ⟨k, rfl⟩ := Nat.exists_eq_add_of_le' hn
    rfl

/-- Settles O36: the values are those of `State.reset`, and a core at rest does nothing (R26). -/
theorem resetLeavesTheTabledValues : Obligations.ResetLeavesTheTabledValues := by
  refine ⟨rfl, rfl, rfl, rfl, rfl, rfl, rfl, rfl, rfl, rfl, rfl, fun s hp hm => ?_⟩
  rw [step_noMoves hm, coreStep, hp]

/-! The state after reset. -/

/-- Settles O47: in `IDLE` with nothing recorded every clause holds at once (R26). -/
theorem resetMeetsTheInvariants : Obligations.ResetMeetsTheInvariants := by
  refine ⟨.of_idle rfl rfl rfl, ⟨fun _ => rfl, ?_, ?_, ?_, ?_, ?_⟩, List.nil_suffix,
    .applyReset .reset _, .applyReset .reset⟩ <;> exact nofun

end Sys2Proof.Machine

namespace Sys2Proof.Machine

/-! Several bytes appended to a storage (R33). -/

variable {n : Nat} {m : List (Nat × BitVec n)} {vs : List (BitVec n)}

/-- Values appended at the end, one after the other. -/
def Mem.appendAll (m : List (Nat × BitVec n)) (vs : List (BitVec n)) : List (Nat × BitVec n) :=
  vs.foldl Mem.append m

@[simp] theorem Mem.appendAll_nil : Mem.appendAll m [] = m := rfl

@[simp] theorem Mem.appendAll_cons (v : BitVec n) :
    Mem.appendAll m (v :: vs) = Mem.appendAll (Mem.append m v) vs := rfl

theorem Mem.appendAll_append (vs ws : List (BitVec n)) :
    Mem.appendAll m (vs ++ ws) = Mem.appendAll (Mem.appendAll m vs) ws :=
  List.foldl_append

theorem Mem.prefix_appendAll (m : List (Nat × BitVec n)) (vs : List (BitVec n)) :
    m <+: Mem.appendAll m vs := by
  induction vs generalizing m with
  | nil => exact List.prefix_rfl
  | cons v vs ih => exact (List.prefix_append m _).trans (ih _)

/-- Only the addresses from the old end on, one for each value, may read otherwise than before. -/
theorem Mem.read?_appendAll {a : Nat} (h : a < Mem.endAddr m ∨ Mem.endAddr m + vs.length ≤ a) :
    Mem.read? (Mem.appendAll m vs) a = Mem.read? m a := by
  induction vs generalizing m with
  | nil => rfl
  | cons v vs ih =>
    rw [List.length_cons] at h
    rw [Mem.appendAll_cons, ih (by rw [Mem.endAddr_append]; omega),
      Mem.read?_append_other (by omega)]

/-! What every operation but presenting a sink does to the sink's storage. -/

variable {s t u : State} {i : Instr} {bs cs : List Byte}

/-- The storage ends with the bytes accepted in this conversion, unless an error was raised (R132). -/
def State.StreamSafe (s : State) : Prop :=
  s.phase = .err ∨ s.storesStream

/-- From `s` to `t` the bytes `bs` were appended to the sink's storage; the accepted bytes still stand
at its end unless an error was raised, and the memories are still canonical. -/
structure Stores (s t : State) (bs : List Byte) : Prop where
  snk : t.env.snk = Mem.appendAll s.env.snk bs
  stream : s.StreamSafe → t.StreamSafe
  memWf : s.env.memWf = true → t.env.memWf = true

theorem Stores.trans (h : Stores s t bs) (h' : Stores t u cs) : Stores s u (bs ++ cs) where
  snk := by rw [h'.snk, h.snk, Mem.appendAll_append]
  stream := h'.stream ∘ h.stream
  memWf := h'.memWf ∘ h.memWf

/-- After an operation that stores nothing. -/
theorem Stores.trans_nil (h : Stores s t []) (h' : Stores t u bs) : Stores s u bs := h.trans h'

/-- An operation that stores and accepts nothing, and leaves no error behind. -/
theorem Stores.of_snk_eq (hs : t.env.snk = s.env.snk) (hw : t.written = s.written)
    (hp : s.phase = .err → t.phase = .err) (hm : s.env.memWf = true → t.env.memWf = true) :
    Stores s t [] where
  snk := hs
  stream := Or.imp hp fun h => by rw [State.storesStream, hs, hw]; exact h
  memWf := hm

/-- An operation on the registers alone. -/
theorem Stores.of_env_eq (he : t.env = s.env) (hp : s.phase = .err → t.phase = .err) :
    Stores s t [] :=
  .of_snk_eq (congrArg Env.snk he) (congrArg (List.filterMap Event.acceptedByte ∘ Env.events) he) hp
    (he ▸ id)

theorem Stores.refl (s : State) : Stores s s [] := .of_env_eq rfl id

theorem Stores.raise (s : State) (e : ErrorKind) : Stores s (s.raise e) [] :=
  .of_env_eq rfl fun _ => rfl

theorem Stores.setPhase (hp : s.phase ≠ .err) (p : Phase) : Stores s (s.setPhase p) [] :=
  .of_env_eq rfl fun h => absurd h hp

/-- Where the model's record is emptied, no byte is accepted yet (log entry 7). -/
theorem Stores.of_events_nil (ht : t.env = { s.env with events := [] }) : Stores s t [] where
  snk := by rw [ht]; rfl
  stream _ := .inr (by rw [State.storesStream, State.written, ht]; exact List.nil_suffix)
  memWf h := by rw [ht]; exact h

/-! The ports. -/

/-- Appending one byte keeps the memories canonical. -/
theorem Env.memWf_append {e e' : Env} {b : Byte} (h : e.memWf = true)
    (hs : e'.snk = Mem.append e.snk b) (hi : e'.image = e.image) (hsrc : e'.sources = e.sources) :
    e'.memWf = true := by
  simp only [Env.memWf, hs, hi, hsrc, Bool.and_eq_true] at h ⊢
  exact h.imp_left (And.imp_left Mem.wf_append)

/-- `put` stores its byte, or raises an error and may store it (R90, R132). -/
theorem put_stores (b : Byte) (s : State) :
    ∃ bs, bs.length ≤ 1 ∧ Stores s (put b s).state bs := by
  rcases put_cases b s with ⟨rest, k, h⟩ | ⟨rest, k, snk, hs, h⟩ <;> rw [h]
  · refine ⟨[b], le_rfl, rfl, Or.imp id fun hst => ?_, fun hm => Env.memWf_append hm rfl rfl rfl⟩
    have hw : (s.setEnv (s.env.afterAccepted b rest k)).countByte.written = s.written ++ [b] :=
      State.written_append (evs := [.sinkWrite b true]) rfl
    obtain ⟨pre, hpre⟩ := hst
    exact ⟨pre, by rw [Flow.goesOn_state, hw]; simp [Env.afterAccepted, ← hpre]⟩
  · rcases hs with rfl | rfl
    · exact ⟨[], zero_le_one, rfl, fun _ => .inl rfl, id⟩
    · exact ⟨[b], le_rfl, rfl, fun _ => .inl rfl, fun hm => Env.memWf_append hm rfl rfl rfl⟩

/-- What follows `put` in the same operation runs unless an error was raised. -/
theorem put_andThen_stores {k : State → Flow} {n : Nat} (b : Byte) (s : State)
    (hk : ∀ u, ∃ cs, cs.length ≤ n ∧ Stores u (k u).state cs) :
    ∃ cs, cs.length ≤ n + 1 ∧ Stores s ((put b s).andThen k).state cs := by
  obtain ⟨bs, hlen, hbs⟩ := put_stores b s
  cases hf : put b s <;> rw [hf] at hbs
  case goesOn u =>
    obtain ⟨cs, hlen', hcs⟩ := hk u
    exact ⟨bs ++ cs, by rw [List.length_append]; omega, hbs.trans hcs⟩
  case raised u => exact ⟨bs, hlen.trans (Nat.le_add_left 1 n), hbs⟩

theorem State.srcOpen_stores (s : State) : Stores s s.srcOpen.2 [] := by
  have hm := s.srcOpen_memWf
  rcases s.srcOpen_cases with ⟨src, k, h⟩ | ⟨src, k, img, h⟩ <;> rw [h] at hm ⊢ <;>
    exact .of_snk_eq rfl (by simp [State.written, Env.log, Event.acceptedByte]) id hm

theorem State.sinkReady_stores (s : State) : Stores s s.sinkReady.2 [] := by
  obtain ⟨a, rest, k, h⟩ := s.sinkReady_cases
  rw [h]
  exact .of_snk_eq rfl (by simp [State.written, Env.log, Event.acceptedByte]) id id

theorem State.sinkClose_stores (s : State) : Stores s s.sinkClose.2 [] := by
  obtain ⟨a, rest, k, h⟩ := s.sinkClose_cases
  rw [h]
  exact .of_snk_eq rfl (by simp [State.written, Env.log, Event.acceptedByte]) id id

/-! The instructions. -/

/-- The most bytes an instruction stores, by whether a nibble is held (R95 to R98). -/
def storeLimit (pend : Bool) : Instr → Nat
  | .emit16 => 2
  | .emit8 => 1
  | .emit4 => pend.toNat
  | .flush4 => pend.toNat
  | _ => 0

theorem storeLimit_le_two (pend : Bool) (i : Instr) : storeLimit pend i ≤ 2 := by
  cases i <;> cases pend <;> decide

theorem storeLimit_le_one {i : Instr} (pend : Bool) (h : i ≠ .emit16) : storeLimit pend i ≤ 1 := by
  revert h
  cases i <;> cases pend <;> decide

theorem storeLimit_eq_zero {i : Instr} {pend : Bool}
    (h : i ∉ [.emit16, .emit8, .emit4, .flush4] ∨ (i ∈ [.emit4, .flush4] ∧ pend = false)) :
    storeLimit pend i = 0 := by
  revert h
  cases i <;> cases pend <;> decide

/-- Writing out a byte and clearing what was held stores at most that byte (R97, R98). -/
theorem put_setHeld_stores (b : Byte) (s : State) :
    ∃ bs, bs.length ≤ 1 ∧
      Stores s ((put b s).andThen fun t => .goesOn (t.setHeld 0 false)).state bs :=
  put_andThen_stores (n := 0) b s fun _ => ⟨[], le_rfl, .of_env_eq rfl id⟩

theorem exec_stores (h : exec i s = .next t) :
    ∃ bs, bs.length ≤ storeLimit s.pend i ∧ Stores s t bs := by
  cases i with
  | start =>
    change execStart s = _ at h
    unfold execStart at h
    split at h <;> cases h
    · exact ⟨[], le_rfl, .refl s⟩
    · exact ⟨[], le_rfl, .of_events_nil rfl⟩
  | emit16 =>
    cases h
    exact put_andThen_stores _ s (put_stores _)
  | emit8 => cases h; exact put_stores _ s
  | emit4 =>
    change execEmit4 s = _ at h
    unfold execEmit4 at h
    split at h <;> rename_i hp <;> cases h
    · rw [hp]; exact put_setHeld_stores _ s
    · exact ⟨[], Nat.zero_le _, .of_env_eq rfl id⟩
  | flush4 =>
    change execFlush4 s = _ at h
    unfold execFlush4 at h
    split at h <;> rename_i hp <;> cases h
    · rw [hp]; exact put_setHeld_stores _ s
    · exact ⟨[], Nat.zero_le _, .refl s⟩
  | reserved5 | reserved6 | reserved7 => cases h; exact ⟨[], le_rfl, .raise s _⟩
  | next => cases h; exact ⟨[], le_rfl, .of_env_eq (by simp) (by simp)⟩
  | _ => cases h; exact ⟨[], le_rfl, .of_env_eq rfl id⟩

/-! The steps. -/

theorem runOps_stores {ops : List Instr} (h : runOps ops s = .next t) : ∃ bs, Stores s t bs := by
  induction ops generalizing s with
  | nil => cases h; exact ⟨[], .refl _⟩
  | cons i rest ih =>
    obtain ⟨u, hu⟩ := exec_next i s
    obtain ⟨bs, -, hbs⟩ := exec_stores hu
    rw [runOps, hu] at h
    by_cases hp : u.phase = .err
    · cases (unlessRaised_next_of_err _ hp).symm.trans h
      exact ⟨bs, hbs⟩
    · obtain ⟨cs, hcs⟩ := ih ((unlessRaised_next_of_ne _ hp).symm.trans h)
      exact ⟨bs ++ cs, hbs.trans hcs⟩

theorem openPorts_stores (hp : s.phase = .check) : Stores s (openPorts s) [] := by
  have hopen := s.srcOpen_stores
  have hphase : s.srcOpen.2.phase = .check := by
    rcases s.srcOpen_cases with ⟨src, k, h⟩ | ⟨src, k, img, h⟩ <;> rw [h] <;> exact hp
  unfold openPorts
  generalize s.srcOpen = x at hopen hphase ⊢
  obtain ⟨_ | ⟨w, ht⟩, u⟩ := x
  · exact hopen.trans_nil (.raise u _)
  · have hready := (u.setDims w ht).sinkReady_stores
    obtain ⟨a, rest, k, h⟩ := (u.setDims w ht).sinkReady_cases
    have hdims : Stores s (u.setDims w ht) [] := hopen.trans_nil (.of_env_eq rfl id)
    dsimp only
    rw [h] at hready ⊢
    refine (hdims.trans_nil hready).trans_nil ?_
    cases a
    · exact .raise _ _
    · exact .setPhase (by simp [show u.phase = _ from hphase]) _

theorem checkStep_stores (hp : s.phase = .check) (h : checkStep s = .next t) :
    ∃ bs, Stores s t bs := by
  unfold checkStep at h
  split at h
  · obtain ⟨bs, -, hbs⟩ := exec_stores h
    exact ⟨bs, hbs⟩
  · cases h
    exact ⟨[], openPorts_stores hp⟩

theorem runStep_stores (hp : s.phase = .run) (h : runStep s = .next t) : ∃ bs, Stores s t bs := by
  by_cases hn : s.idx = s.pixelCount
  · cases (runStep_no_pixel_left hn).symm.trans h
    exact ⟨[], .setPhase (by simp [hp]) _⟩
  · by_cases hin : s.row < s.env.image.height ∧ s.col < s.env.image.width
    · obtain ⟨w, hw, -⟩ := runStep_pixel_left hn hin
      obtain ⟨bs, hbs⟩ := runOps_stores (hw.symm.trans h)
      have hread : Stores s ((s.setEnv (s.env.log (.srcRead s.row s.col w))).latchPx
          (Sample.ofWord w)) [] :=
        .of_snk_eq rfl (by simp [State.written, Env.log, Event.acceptedByte]) id id
      exact ⟨bs, hread.trans_nil hbs⟩
    · cases (runStep_outside hn hin).symm.trans h

theorem flushStep_stores (h : flushStep s = .next t) : ∃ bs, Stores s t bs := by
  obtain ⟨u, hu⟩ := exec_next .flush4 s
  obtain ⟨bs, -, hbs⟩ := exec_stores hu
  rw [flushStep, hu] at h
  by_cases hp : u.phase = .err
  · cases (unlessRaised_next_of_err _ hp).symm.trans h
    exact ⟨bs, hbs⟩
  · cases (unlessRaised_next_of_ne _ hp).symm.trans h
    exact ⟨bs ++ [], hbs.trans (.setPhase hp _)⟩

theorem closeStep_stores (hp : s.phase = .close) (h : closeStep s = .next t) : Stores s t [] := by
  have hclose := s.sinkClose_stores
  obtain ⟨a, rest, k, hc⟩ := s.sinkClose_cases
  unfold closeStep at h
  rw [hc] at h hclose
  cases a <;> cases h
  · exact hclose.trans_nil (.raise _ _)
  · exact hclose.trans_nil (.setPhase (by simp [hp]) _)

theorem coreStep_stores (h : coreStep s = .next t) : ∃ bs, Stores s t bs := by
  cases hp : s.phase <;> simp only [coreStep, hp] at h
  case check => exact checkStep_stores hp h
  case run => exact runStep_stores hp h
  case flush => exact flushStep_stores h
  case close => exact ⟨[], closeStep_stores hp h⟩
  all_goals cases h; exact ⟨[], .refl s⟩

theorem hostWrite_stores {reg word : Nat} (h : hostWrite reg word s = .next t) : Stores s t [] := by
  rcases hostWrite_cases h with rfl | ⟨-, rfl⟩ | rfl
  · exact .refl _
  · exact .of_env_eq rfl id
  · exact .of_events_nil rfl

/-- A move stores at the end of the sink's storage, unless the glue presents another sink (R33, R147). -/
theorem moveStep_stores {m : Move} (h : moveStep m s = .next t) :
    (∃ bs, Stores s t bs) ∨
      ∃ content, m = .sink content ∧ s.phase.busy = false ∧ t = s.presentSink content := by
  cases m with
  | core => exact .inl (coreStep_stores h)
  | write reg word => exact .inl ⟨[], hostWrite_stores h⟩
  | read reg => cases h; exact .inl ⟨[], .of_snk_eq rfl rfl id id⟩
  | reset => cases h; exact .inl ⟨[], .of_events_nil rfl⟩
  | sink content =>
    rw [moveStep] at h
    split at h <;> cases h
    exact .inr ⟨content, rfl, Bool.eq_false_of_not_eq_true ‹_›, rfl⟩

/-- A step stores at the end of the sink's storage, unless the glue presents another sink (R33, R147). -/
theorem step_stores (h : step s = .next t) :
    (∃ bs, Stores s t bs) ∨
      ∃ content rest, s.env.moves = .sink content :: rest ∧ s.phase.busy = false ∧
        t = (s.setEnv { s.env with moves := rest }).presentSink content := by
  cases hm : s.env.moves with
  | nil => exact .inl (coreStep_stores ((step_noMoves hm).symm.trans h))
  | cons m rest =>
    rcases moveStep_stores ((step_move hm).symm.trans h) with
      ⟨bs, hbs⟩ | ⟨content, rfl, hb, ht⟩
    · exact .inl ⟨bs, { hbs with }⟩
    · exact .inr ⟨content, rest, rfl, hb, ht⟩

/-- Presenting a sink keeps the memories canonical (R147). -/
theorem State.presentSink_memWf (content : List Byte) (h : s.env.memWf = true) :
    (s.presentSink content).env.memWf = true := by
  simp only [State.presentSink_env, Env.memWf, Bool.and_eq_true] at h ⊢
  exact h.imp_left (And.imp_left fun _ => Mem.wf_ofValues content 0)

/-- Settles O40: a step only appends to the storage (R33). -/
theorem sinkOnlyGrowsAtItsEnd : Obligations.SinkOnlyGrowsAtItsEnd := by
  intro s t hm h
  rcases step_stores h with ⟨bs, hbs⟩ | ⟨content, rest, hsink, -⟩
  · rw [hbs.snk]
    exact Mem.prefix_appendAll _ _
  · exact absurd hsink (hm content rest)

/-- Settles O41: every operation keeps the accepted bytes at the storage's end or leaves an error, and
no sink is presented while busy (R33, R45). -/
theorem acceptedBytesReachTheStorage : Obligations.AcceptedBytesReachTheStorage := by
  intro s t hb hs h hne
  rcases step_stores h with ⟨bs, hbs⟩ | ⟨-, -, -, hrest, -⟩
  · exact (hbs.stream (.inr hs)).resolve_left hne
  · exact absurd (hb.symm.trans hrest) Bool.noConfusion

/-- Settles O46: appending to the storage, opening a source and presenting a sink keep the canonical
form, and nothing else writes a memory. -/
theorem stepKeepsMemoriesCanonical : Obligations.StepKeepsMemoriesCanonical := by
  intro s t hm h
  rcases step_stores h with ⟨bs, hbs⟩ | ⟨content, rest, -, -, rfl⟩
  · exact hbs.memWf hm
  · exact State.presentSink_memWf content hm

/-- Settles O20: an instruction appends at most two bytes, one but for `EMIT16`, and none but by an
emitter or a flush; the image is untouched (R30, R33). -/
theorem instructionsStoreOnlyAtTheEnd : Obligations.InstructionsStoreOnlyAtTheEnd := by
  intro i s t h
  obtain ⟨bs, hlen, hbs⟩ := exec_stores h
  have hother {k : Nat} (hk : storeLimit s.pend i ≤ k) (a : Nat)
      (ha : a < Mem.endAddr s.env.snk ∨ Mem.endAddr s.env.snk + k ≤ a) :
      Mem.read? t.env.snk a = Mem.read? s.env.snk a := by
    rw [hbs.snk]
    exact Mem.read?_appendAll (by omega)
  refine ⟨fun a h₀ h₁ => hother (storeLimit_le_two _ i) a (by omega),
    fun hi a h₀ => hother (storeLimit_le_one _ hi) a (by omega), fun hi => ?_,
    (exec_sameImage h).image⟩
  rw [storeLimit_eq_zero hi, Nat.le_zero, List.length_eq_zero_iff] at hlen
  rw [hbs.snk, hlen, Mem.appendAll_nil]

end Sys2Proof.Machine

namespace Sys2Proof.Machine

variable {s : State}

/-! In a run no step stops (R39). -/

theorem runStep_next_of_convInv (hi : ConvInv s) (hp : s.phase = .run) :
    ∃ t, runStep s = .next t := by
  obtain ⟨hit, f, hf, -⟩ := hi.running hp
  by_cases hn : s.idx = s.pixelCount
  · exact ⟨_, runStep_no_pixel_left hn⟩
  · obtain ⟨hr, hc⟩ := hit.inside hn
    obtain ⟨w, px, sum, int, a1, -, -, ⟨_, _, _, _, -, -, h⟩ | ⟨_, _, _, -, -, h⟩⟩ :=
      runStep_cases hp hf hn (hit.height_eq ▸ hr) (hit.width_eq ▸ hc)
    · exact ⟨_, h⟩
    · exact ⟨_, h⟩

theorem checkStep_next (s : State) : ∃ t, checkStep s = .next t := by
  unfold checkStep
  split
  · exact exec_next _ s
  · exact ⟨_, rfl⟩

theorem flushStep_next (s : State) : ∃ t, flushStep s = .next t := by
  obtain ⟨u, hu⟩ := exec_next .flush4 s
  rw [flushStep, hu, unlessRaised]
  split <;> exact ⟨_, rfl⟩

theorem closeStep_next (s : State) : ∃ t, closeStep s = .next t := by
  rcases closeStep_cases s with ⟨_, -, h⟩ | ⟨_, -, h⟩ <;> exact ⟨_, h⟩

theorem coreStep_next_of_convInv (hi : ConvInv s) : ∃ t, coreStep s = .next t := by
  cases hp : s.phase <;> simp only [coreStep, hp]
  case check => exact checkStep_next s
  case run => exact runStep_next_of_convInv hi hp
  case flush => exact flushStep_next s
  case close => exact closeStep_next s
  all_goals exact ⟨s, rfl⟩

theorem hostWrite_next (reg word : Nat) (s : State) : ∃ t, hostWrite reg word s = .next t := by
  unfold hostWrite
  split
  · exact ⟨_, rfl⟩
  · exact exec_next _ s
  · exact ⟨_, rfl⟩

/-- A sink presented while the core is busy is refused (R150; log entry 12). -/
theorem moveStep_sink_of_busy (hb : s.phase.busy = true) (content : List Byte) :
    moveStep (.sink content) s = .refused .sinkPresentedWhileBusy := if_pos hb

theorem moveStep_sink_of_not_busy (hb : s.phase.busy = false) (content : List Byte) :
    moveStep (.sink content) s = .next (s.presentSink content) := if_neg (by simp [hb])

theorem moveStep_next_of_convInv {m : Move} (hi : ConvInv s)
    (hm : ∀ content, m = .sink content → s.phase.busy = false) : ∃ t, moveStep m s = .next t := by
  cases m with
  | core => exact coreStep_next_of_convInv hi
  | write reg word => exact hostWrite_next reg word s
  | read reg => exact ⟨_, rfl⟩
  | reset => exact ⟨_, rfl⟩
  | sink content => exact ⟨_, moveStep_sink_of_not_busy (hm content rfl) content⟩

/-- The glue's duty, of the next move (R150). -/
theorem State.not_busy_of_dutyKept {content : List Byte} {rest : List Move}
    (hd : s.dutyKept = true) (hm : s.env.moves = .sink content :: rest) : s.phase.busy = false := by
  simpa [State.dutyKept, hm] using hd

/-- Settles O45: by the next move; a pixel left lies inside the image, so `RUN` does not fault, and the
glue's duty excludes the one move that is refused (R39, R150). -/
theorem runsNeverStop : Obligations.RunsNeverStop := by
  intro s hi hd
  cases hm : s.env.moves with
  | nil =>
    rw [step_noMoves hm]
    exact coreStep_next_of_convInv hi
  | cons m rest =>
    rw [step_move hm]
    refine moveStep_next_of_convInv (hi.setMoves rest) ?_
    rintro content rfl
    exact s.not_busy_of_dutyKept hd hm

/-- Settles O44: both stops are the model's own (log entries 11, 12). -/
theorem modelStopsOutsideTheSpec : Obligations.ModelStopsOutsideTheSpec := by
  refine ⟨fun s hm hp hn hout => ?_, fun s content rest hb hm => ?_⟩
  · rw [step_noMoves hm, coreStep, hp]
    exact runStep_outside hn (by omega)
  · rw [step_move hm]
    exact moveStep_sink_of_busy (s := s.setEnv { s.env with moves := rest }) hb content

end Sys2Proof.Machine

namespace Sys2Proof.Machine

/-! The source as an image of given sample words (R31, R32, R56). -/

variable {w h row col i : Nat} {ws : List SampleWord}

theorem Image.at_ofWords (w h : Nat) (ws : List SampleWord) (i : Nat) :
    (Image.ofWords w h ws).at i = ws[i]?.getD 0 := by
  simpa [Image.at, Image.ofWords] using Mem.getD_read?_ofValues 0 ws 0 i

theorem Image.getElem?_eq_at_ofWords (hi : i < ws.length) :
    ws[i]? = some ((Image.ofWords w h ws).at i) := by
  rw [Image.at_ofWords, List.getElem?_eq_getElem hi, Option.getD_some]

theorem Image.pixels_ofWords (hl : ws.length = w * h) :
    (Image.ofWords w h ws).pixels = ws.map Sample.ofWord := by
  have hcount : (Image.ofWords w h ws).count = ws.length := hl.symm
  refine List.ext_getElem? fun i => ?_
  by_cases hi : i < ws.length
  · rw [Image.pixels_get? (hcount ▸ hi), List.getElem?_map, Image.getElem?_eq_at_ofWords hi,
      Option.map_some]
  · rw [List.getElem?_eq_none (by simp; omega), List.getElem?_eq_none (by simp; omega)]

/-- The flat index of a location inside the rectangle is below the pixel count (R32). -/
theorem flat_index_lt (hr : row < h) (hc : col < w) : row * w + col < w * h :=
  calc row * w + col < row * w + w := by omega
    _ = (row + 1) * w := (Nat.succ_mul row w).symm
    _ ≤ h * w := Nat.mul_le_mul_right w hr
    _ = w * h := Nat.mul_comm h w

open BitVec in
/-- A sample is read back from its word, the channels in this order (R56). -/
theorem Sample.ofWord_word (p : Sample) : Sample.ofWord p.word = p := by
  obtain ⟨r, g, b, a⟩ := p
  rw [Sample.ofWord, Sample.word]
  congr 1
  · rw [extractLsb'_append_eq_of_le (by decide), extractLsb'_append_eq_of_le (by decide),
      extractLsb'_append_eq_of_le (by decide)]
    exact extractLsb'_eq_self
  · rw [extractLsb'_append_eq_of_le (by decide), extractLsb'_append_eq_of_le (by decide),
      extractLsb'_append_eq_of_add_le (by decide)]
    exact extractLsb'_eq_self
  · rw [extractLsb'_append_eq_of_le (by decide), extractLsb'_append_eq_of_add_le (by decide)]
    exact extractLsb'_eq_self
  · rw [extractLsb'_append_eq_of_add_le (by decide)]
    exact extractLsb'_eq_self

/-- Settles O60: the list of samples reads back by flat index, and `SrcRead` reads there (R31, R32, R56). -/
theorem sourceReadsItsSamples : Obligations.SourceReadsItsSamples := by
  refine ⟨fun w h ws hl => ⟨rfl, rfl, fun i hi => Image.getElem?_eq_at_ofWords (hl ▸ hi),
    Image.pixels_ofWords hl, fun s row col himg hr hc => ?_⟩, fun _ => rfl, Sample.ofWord_word⟩
  refine ⟨_, Image.getElem?_eq_at_ofWords (w := w) (h := h) (hl ▸ flat_index_lt hr hc), ?_⟩
  rw [State.srcRead_eq, himg, if_pos ⟨hr, hc⟩]
  rfl

end Sys2Proof.Machine

namespace Sys2Proof.Machine

/-! The stream by its length and by its offsets (R43, R44). -/

variable {f : Format} {ps qs : List Sample} {p : Sample} {i k : Nat}

theorem bpp_eq_of_widthClass (f : Format) :
    f.bpp = match f.widthClass with
      | .w16 => 16
      | .w8 => 8
      | .w4 => 4 := by
  cases f <;> rfl

/-- Settles O50, by the width class: only an odd number of nibbles leaves one to write out (R44, R101). -/
theorem packLengthIsExact : Obligations.PackLengthIsExact := by
  intro f ps
  have hout := packing_out_length f ps
  have hpend := packing_pend f ps
  have hbpp := bpp_eq_of_widthClass f
  rw [pack, apply_ite List.length, List.length_append, List.length_singleton, streamLength]
  cases hc : f.widthClass <;> simp only [hc] at hout hpend hbpp <;> rw [hout, hpend, hbpp]
  case w16 => simp; omega
  case w8 => simp; omega
  case w4 => simp only [decide_true, Bool.true_and, decide_eq_true_eq]; split <;> omega

/-! The groups of a list of pixels. -/

theorem groupAt_append_left (hi : i < ps.length) : groupAt f (ps ++ qs) i = groupAt f ps i := by
  rw [groupAt, groupAt, List.getElem?_append_left hi]

theorem groupAt_append_length (f : Format) (ps : List Sample) (p : Sample) :
    groupAt f (ps ++ [p]) ps.length = enc f p := by
  rw [groupAt, List.getElem?_concat_length]

/-- A held nibble is the group of the last pixel (R104). -/
theorem packing_acc_eq_groupAt (h : (packing f ps).pend = true) :
    (packing f ps).acc = groupNibble (groupAt f ps (ps.length - 1)) <<< 4 := by
  cases ps using List.reverseRecOn with
  | nil => cases h
  | append_singleton ps p =>
    rw [packing_acc_of_pend f ps p h, List.length_append, List.length_singleton,
      Nat.add_sub_cancel, groupAt_append_length]

/-! The bytes out, by offset. -/

/-- One more pixel leaves the bytes already out where the stream map has them (R43). -/
theorem streamByte_append_one (hk : k < (packing f ps).out.length) :
    streamByte f (ps ++ [p]) k = streamByte f ps k := by
  rw [packing_out_length] at hk
  unfold streamByte
  cases hc : f.widthClass <;> simp only [hc] at hk ⊢
  case w16 => rw [groupAt_append_left (by omega)]
  case w8 => rw [groupAt_append_left hk]
  case w4 =>
    rw [groupAt_append_left (by omega), groupAt_append_left (by omega), List.length_append,
      if_pos (by omega), if_pos (by omega)]

/-- The bytes that one more pixel completes stand where the stream map has them (R43). -/
theorem packing_out_getElem?_new (hle : (packing f ps).out.length ≤ k)
    (hk : k < (packing f (ps ++ [p])).out.length) :
    (packing f (ps ++ [p])).out[k]? = some (streamByte f (ps ++ [p]) k) := by
  have hlast := groupAt_append_length f ps p
  have hpend := packing_pend f ps
  have hlen := packing_out_length f ps
  rw [packing_out_length, List.length_append, List.length_singleton] at hk
  rw [packing_append_one, Packing.add, streamByte]
  cases hc : f.widthClass <;> simp only [hc] at hk hlen hpend ⊢
  case w16 =>
    rw [List.getElem?_append_right hle]
    obtain rfl | rfl : k = 2 * ps.length ∨ k = 2 * ps.length + 1 := by omega
    · have hhalf : 2 * ps.length / 2 = ps.length := by omega
      rw [hlen, if_pos (by omega), hhalf, hlast, Nat.sub_self]
      rfl
    · have hhalf : (2 * ps.length + 1) / 2 = ps.length := by omega
      rw [hlen, if_neg (by omega), hhalf, hlast, Nat.add_sub_cancel_left]
      rfl
  case w8 =>
    obtain rfl : k = ps.length := by omega
    rw [List.getElem?_append_right hle, hlen, hlast, Nat.sub_self]
    rfl
  case w4 =>
    have hodd : ps.length = 2 * k + 1 := by omega
    have hheld : (packing f ps).pend = true := by rw [hpend]; simp; omega
    have hfirst := packing_acc_eq_groupAt hheld
    rw [hodd, Nat.add_sub_cancel] at hfirst
    rw [hodd] at hlast hlen
    have hk0 : k - (2 * k + 1) / 2 = 0 := by omega
    rw [if_pos hheld, List.getElem?_append_right hle, hfirst, hlen, hk0, hlast,
      groupAt_append_left (by omega), if_pos (by simp [hodd])]
    rfl

theorem packing_out_getElem? (hk : k < (packing f ps).out.length) :
    (packing f ps).out[k]? = some (streamByte f ps k) := by
  induction ps using List.reverseRecOn with
  | nil => exact absurd hk (Nat.not_lt_zero k)
  | append_singleton ps p ih =>
    rcases Nat.lt_or_ge k (packing f ps).out.length with hlt | hge
    · rw [streamByte_append_one hlt, ← ih hlt, List.getElem?_eq_getElem hlt]
      exact List.prefix_iff_getElem?.1 (packing_out_mono f ps [p]) k hlt
    · exact packing_out_getElem?_new hge hk

/-- The nibble left over is the stream map's last byte (R43, R98). -/
theorem packing_acc_eq_streamByte (h : (packing f ps).pend = true) :
    (packing f ps).acc = streamByte f ps (packing f ps).out.length := by
  have hpend := packing_pend f ps
  rw [h, eq_comm, Bool.and_eq_true, decide_eq_true_eq, decide_eq_true_eq] at hpend
  obtain ⟨hc, hodd⟩ := hpend
  have hlast : 2 * (ps.length / 2) = ps.length - 1 := by omega
  rw [packing_acc_eq_groupAt h, packing_out_length, streamByte]
  simp only [hc]
  rw [if_neg (by omega), hlast]
  exact BitVec.or_zero.symm

/-- Settles O51: the bytes out stand by the stream map, and so does a nibble left over (R43). -/
theorem packMeetsTheStreamMap : Obligations.PackMeetsTheStreamMap := by
  intro f ps k hk
  rw [← packLengthIsExact f ps] at hk
  cases hp : (packing f ps).pend with
  | false =>
    rw [pack_of_not_pend hp] at hk ⊢
    exact packing_out_getElem? hk
  | true =>
    rw [pack_of_pend hp, List.length_append, List.length_singleton] at hk
    rw [pack_of_pend hp]
    rcases Nat.lt_succ_iff_lt_or_eq.1 hk with hlt | rfl
    · rw [List.getElem?_append_left hlt, packing_out_getElem? hlt]
    · rw [List.getElem?_concat_length, packing_acc_eq_streamByte hp]

end Sys2Proof.Machine

namespace Sys2Proof.Machine

/-! The width of a bit-group (R57). -/

/-- Every layout joins fields that fit beside each other in the format's width (R58 to R62). -/
theorem enc_toNat_lt (f : Format) (p : Sample) : (enc f p).toNat < 2 ^ f.bpp := by
  have hint := (intensityOf p.colourSum).isLt
  cases f with
  | rgba5551 => exact BitVec.isLt _
  | i4 =>
    rw [enc, groupI4, BitVec.toNat_ofNat]
    exact Nat.mod_lt_of_lt (show _ < 16 by omega)
  | i8 =>
    rw [enc, groupI8, BitVec.toNat_ofNat]
    exact Nat.mod_lt_of_lt (show _ < 256 by omega)
  | ia4 =>
    have ha1 := p.alphaBit.isLt
    rw [enc, groupIa4, BitVec.toNat_ofNat, Nat.shiftLeft_eq]
    exact Nat.mod_lt_of_lt (Nat.or_lt_two_pow (n := 4) (by omega) (by omega))
  | ia8 =>
    have ha := p.a.isLt
    rw [enc, groupIa8, BitVec.toNat_ofNat, Nat.shiftLeft_eq]
    exact Nat.mod_lt_of_lt (Nat.or_lt_two_pow (n := 8) (by omega) (by omega))

/-- Settles O14: an encoder drives `BG` with `enc(format, PX)` (R57, R75). -/
theorem groupFitsItsFormat : Obligations.GroupFitsItsFormat := by
  intro f s t h
  obtain ⟨sum, int, a1, he⟩ := exec_encoder f s
  cases he.symm.trans h
  exact enc_toNat_lt f s.px

end Sys2Proof.Machine

namespace Sys2Proof.Machine

variable {c : FmtCode} {i : Instr} {k : Slot} {s : State}

/-! Decoding and encoding (R52, R54, R65, R68). -/

/-- Settles O1, word by word. -/
theorem writtenOutWordsDecode : Obligations.WrittenOutWordsDecode := by
  unfold Obligations.WrittenOutWordsDecode
  decide

theorem decode_encode (h : i.wellFormed c = true) : decode (encode c i) = .ok i := by
  cases i with
  | encRgba5551 => exact Laws.RoundTrip.encRgba5551 c h
  | encI4 => exact Laws.RoundTrip.encI4 c h
  | encI8 => exact Laws.RoundTrip.encI8 c h
  | encIa4 => exact Laws.RoundTrip.encIa4 c h
  | encIa8 => exact Laws.RoundTrip.encIa8 c h
  | reserved5 => exact Laws.RoundTrip.reserved5 c h
  | reserved6 => exact Laws.RoundTrip.reserved6 c h
  | reserved7 => exact Laws.RoundTrip.reserved7 c h
  | start => exact Laws.RoundTrip.start c h
  | ctrlNone => exact Laws.RoundTrip.ctrlNone c h
  | intens => exact Laws.RoundTrip.intens c h
  | emit16 => exact Laws.RoundTrip.emit16 c h
  | emit8 => exact Laws.RoundTrip.emit8 c h
  | emit4 => exact Laws.RoundTrip.emit4 c h
  | flush4 => exact Laws.RoundTrip.flush4 c h
  | next => exact Laws.RoundTrip.next c h

/-- The row an `FMT` code selects is written as that code (R54). -/
theorem encode_decodeFmt (c : FmtCode) :
    (decodeFmt c).wellFormed c = true ∧ encode c (decodeFmt c) = .fmt c := by
  revert c
  decide

/-- The command of a `CTRL` word is written as the word's bit 0 (R65). -/
theorem encode_decodeCtrl (w : Nat) (c : FmtCode) :
    (decodeCtrl w).wellFormed c = true ∧ encode c (decodeCtrl w) = .ctrl (w % 2) := by
  rw [decodeCtrl, Nat.testBit_zero]
  rcases Nat.mod_two_eq_zero_or_one w with h | h <;> rw [h] <;> exact ⟨rfl, rfl⟩

/-- An operation at a point of a step is written as that point. -/
theorem encode_decodeInternal (h : decodeInternal k c = some i) :
    i.wellFormed c = true ∧ encode c i = .internal k c := by
  suffices key : ∀ c, ∀ i ∈ decodeInternal k c,
      i.wellFormed c = true ∧ encode c i = .internal k c from key c i h
  cases k <;> decide

/-- The points with no operation: all of them under a reserved code, the intensity also under code 0. -/
theorem decodeInternal_eq_none_iff (k : Slot) (c : FmtCode) :
    decodeInternal k c = none ↔ 5 ≤ c.toNat ∨ (k = .intensity ∧ c = 0) := by
  revert c
  cases k <;> decide

theorem decode_internal_eq_ok_iff : decode (.internal k c) = .ok i ↔ decodeInternal k c = some i := by
  rw [decode]
  cases decodeInternal k c <;> simp

theorem decode_internal_eq_error_iff :
    decode (.internal k c) = .error (.noOperation k c) ↔ decodeInternal k c = none := by
  rw [decode]
  cases decodeInternal k c <;> simp

/-- Settles O2, by the kind of encoding. -/
theorem decodeAndEncodeAgree : Obligations.DecodeAndEncodeAgree := by
  refine ⟨fun c i => decode_encode, fun c i h => ?_, fun w c i h => ?_, fun k c i h => ?_,
    fun k c => ?_⟩
  · cases h
    exact encode_decodeFmt c
  · cases h
    exact encode_decodeCtrl w c
  · exact encode_decodeInternal (decode_internal_eq_ok_iff.1 h)
  · exact decode_internal_eq_error_iff.trans (decodeInternal_eq_none_iff k c)

/-- Settles O3, by bit 0 of the word (R65). -/
theorem ctrlWriteActsOnBitZero : Obligations.CtrlWriteActsOnBitZero := by
  refine fun w s => ⟨fun h => ?_, fun h => ?_⟩
  · exact (hostWrite_ctrl s w).trans (if_pos h)
  · exact (hostWrite_ctrl s w).trans (if_neg (by omega))

/-! The format table (R50). -/

theorem formatOf_code (f : Format) : formatOf f.code = some f := by
  cases f <;> rfl

theorem formatOf_eq_some_iff (c : FmtCode) (f : Format) : formatOf c = some f ↔ c = f.code :=
  ⟨code_of_formatOf, fun h => h ▸ formatOf_code f⟩

/-- Settles O5: a code names a format exactly when it is the format's own code (R50). -/
theorem formatTableIsClosed : Obligations.FormatTableIsClosed := by
  refine ⟨fun c => ⟨formatOf_eq_some_iff c _, formatOf_eq_some_iff c _, formatOf_eq_some_iff c _,
    formatOf_eq_some_iff c _, formatOf_eq_some_iff c _, ?_⟩, fun _ => rfl, fun _ => rfl,
    fun _ => rfl, fun _ => rfl, fun f => ?_⟩
  · revert c
    decide
  · rw [pixelOps_of_formatOf (formatOf_code f)]
    cases f <;> rfl

/-! The reserved codes (R54). -/

theorem formatOf_eq_none_iff (c : FmtCode) : formatOf c = none ↔ 5 ≤ c.toNat := by
  revert c
  decide

theorem step_check_reserved (hm : s.env.moves = []) (hp : s.phase = .check) (hc : 5 ≤ s.fmt.toNat) :
    step s = .next (s.raise .invalidFormat) := by
  have hf := (formatOf_eq_none_iff s.fmt).2 hc
  rw [step_noMoves hm, coreStep, hp, ← exec_decodeFmt_reserved hf]
  simp only [checkStep, hf]

/-- Settles O24, row by row (R54, R131). -/
theorem reservedRowsRaiseInvalidFormat : Obligations.ReservedRowsRaiseInvalidFormat := by
  intro i s hi
  simp only [List.mem_cons, List.not_mem_nil, or_false] at hi
  rcases hi with rfl | rfl | rfl <;> rfl

/-- Settles O25: `CHECK` tests the format before it asks the source (R54, R111). -/
theorem reservedCodeRaisesBeforeAnyRequest : Obligations.ReservedCodeRaisesBeforeAnyRequest :=
  fun _ => step_check_reserved

/-! The selector tokens (R53). -/

theorem decodeToken_of_notMem {t : String} (h : t ∉ ["rgba5551", "i4", "i8", "ia4", "ia8"]) :
    decodeToken t = 7 := by
  simp only [List.mem_cons, List.not_mem_nil, or_false, not_or] at h
  obtain ⟨h0, h1, h2, h3, h4⟩ := h
  simp only [decodeToken, Format.token, h0, h1, h2, h3, h4, if_false]

/-- At rest the glue's two writes for a token select its code and begin a conversion (R53, R110). -/
theorem run_tokenMoves {t : String} (n : Nat) (hb : s.phase.busy = false)
    (hm : s.env.moves = tokenMoves t) :
    Host.Core.run Sys2Proof.core (n + 2) s = Host.Core.run Sys2Proof.core n
      ((s.setFmt (decodeToken t)).setEnv { s.env with moves := [] }).beginRun := by
  have hfmt : step s = .next
      ((s.setFmt (decodeToken t)).setEnv { s.env with moves := [.write 1 1] }) := by
    rw [step_move hm, moveStep, hostWrite, State.writeFmt, if_neg (by simp [hb]), fmtField,
      BitVec.ofNat_toNat, BitVec.setWidth_eq]
    rfl
  have hstart := step_move
    (s := (s.setFmt (decodeToken t)).setEnv { s.env with moves := [.write 1 1] }) rfl
  rw [run_of_step (n + 1) hfmt, run_of_step n (hstart.trans (exec_start_of_not_busy hb))]
  rfl

/-- Settles O4: an invalid token writes code 7, and `CHECK` raises before any request (R53, R54). -/
theorem tokensGiveTheirCodes : Obligations.TokensGiveTheirCodes := by
  refine ⟨by decide, by decide, by decide, by decide, by decide, fun t => decodeToken_of_notMem,
    fun t => rfl, fun t s ht hb hm => ?_⟩
  have hrun := run_tokenMoves 1 hb hm
  have hreserved : 5 ≤ (7 : FmtCode).toNat := by decide
  rw [decodeToken_of_notMem ht, run_of_step 0 (step_check_reserved rfl rfl hreserved)] at hrun
  exact ⟨_, hrun, rfl, rfl, rfl, rfl, rfl, rfl⟩

end Sys2Proof.Machine

namespace Sys2Proof.Machine

variable {n : Nat} {sum : BitVec 10}

/-! The intensity (R70, R71, R74). -/

/-- `INTENS` runs exactly under the codes of the formats whose encoder reads `INT` (R70). -/
theorem decodeInternal_intensity_eq_intens_iff (c : FmtCode) :
    decodeInternal .intensity c = some .intens ↔ c = 1 ∨ c = 2 ∨ c = 3 ∨ c = 4 := by
  revert c
  decide

theorem exec_intens (s : State) : exec .intens s = .next s.driveIntensity := rfl

/-- Three channels of 8 bits, at most 765 together, fit in the 10 bits of `SUM` (R71). -/
theorem Sample.colourSum_toNat (p : Sample) :
    p.colourSum.toNat = p.r.toNat + p.g.toNat + p.b.toNat := by
  have hr := p.r.isLt
  have hg := p.g.isLt
  have hb := p.b.isLt
  exact (BitVec.toNat_ofNat _ _).trans (Nat.mod_eq_of_lt (show _ < 1024 by omega))

theorem Sample.colourSum_toNat_le (p : Sample) : p.colourSum.toNat ≤ 765 := by
  have hr := p.r.isLt
  have hg := p.g.isLt
  have hb := p.b.isLt
  rw [p.colourSum_toNat]
  omega

/-- A third of a sum that three channels can have fits in the byte `INT` (R71). -/
theorem intensityOf_toNat (h : sum.toNat ≤ 765) : (intensityOf sum).toNat = sum.toNat / 3 :=
  (BitVec.toNat_ofNat _ _).trans (Nat.mod_eq_of_lt (show _ < 256 by omega))

/-- With `n = 3 * q + r`, `683 * n = 2048 * q + (q + 683 * r)`, the rest below 2048 (R74). -/
theorem div_three_eq_mul_shiftRight (h : n ≤ 765) : n / 3 = (n * 683) >>> 11 := by
  rw [Nat.shiftRight_eq_div_pow]
  omega

/-- Settles O6: no bit of the sum or of its third is lost in the wire that holds it (R70, R71). -/
theorem intensityIsTruncatedAverage : Obligations.IntensityIsTruncatedAverage := by
  refine ⟨fun c => decode_internal_eq_ok_iff.trans (decodeInternal_intensity_eq_intens_iff c),
    fun s => ⟨_, exec_intens s, s.px.colourSum_toNat, ?_, rfl⟩⟩
  rw [State.driveIntensity_int, intensityOf_toNat s.px.colourSum_toNat_le, s.px.colourSum_toNat]

/-- Settles O7: on every sum of three channels, the multiplication gives the third (R74). -/
theorem intensityNeedsNoDivider : Obligations.IntensityNeedsNoDivider := by
  intro s t h
  cases (exec_intens s).symm.trans h
  have hsum := s.px.colourSum_toNat_le
  exact (intensityOf_toNat hsum).trans (div_three_eq_mul_shiftRight hsum)

end Sys2Proof.Machine

namespace Sys2Proof.Machine

/-! The selection of an encoder and what it drives (R75, R85). -/

theorem decode_fmt_code (f : Format) : decode (.fmt f.code) = .ok f.encoder := by
  rw [decode, decodeFmt, formatOf_code]

/-- Settles O13: an encoder drives `BG` with a value that names only the format and `PX` (R84). -/
theorem encoderSeesOnlyTheSample : Obligations.EncoderSeesOnlyTheSample := by
  intro f s₁ s₂ hpx
  obtain ⟨sum₁, int₁, b₁, h₁⟩ := exec_encoder f s₁
  obtain ⟨sum₂, int₂, b₂, h₂⟩ := exec_encoder f s₂
  exact ⟨_, _, h₁, h₂, rfl, congrArg (enc f) hpx.symm⟩

theorem exec_encRgba5551 (s : State) :
    exec .encRgba5551 s = .next (s.driveA1.setBg (enc .rgba5551 s.px)) := rfl

theorem exec_encI4 (s : State) :
    exec .encI4 s = .next (s.driveIntensity.setBg (enc .i4 s.px)) := rfl

theorem exec_encI8 (s : State) :
    exec .encI8 s = .next (s.driveIntensity.setBg (enc .i8 s.px)) := rfl

theorem exec_encIa4 (s : State) :
    exec .encIa4 s = .next (s.driveIntensity.driveA1.setBg (enc .ia4 s.px)) := rfl

theorem exec_encIa8 (s : State) :
    exec .encIa8 s = .next (s.driveIntensity.setBg (enc .ia8 s.px)) := rfl

/-! The wires an encoder reads, as numbers (R70, R81). -/

theorem Sample.intensity_toNat (p : Sample) :
    (intensityOf p.colourSum).toNat = (p.r.toNat + p.g.toNat + p.b.toNat) / 3 := by
  rw [intensityOf_toNat p.colourSum_toNat_le, p.colourSum_toNat]

theorem Sample.alphaBit_toNat (p : Sample) :
    p.alphaBit.toNat = if p.a.toNat > 0 then 1 else 0 :=
  apply_ite BitVec.toNat _ _ _

/-! The layouts as numbers: the 16 bits of `BG` lose nothing (R86). -/

theorem groupRgba5551_toNat (p : Sample) (a1 : BitVec 1) : (groupRgba5551 p a1).toNat =
    p.r.toNat / 8 * 0x0800 + p.g.toNat / 8 * 0x0040 + p.b.toNat / 8 * 0x0002 + a1.toNat := by
  have hr := p.r.isLt
  have hg := p.g.isLt
  have hb := p.b.isLt
  have ha1 := a1.isLt
  exact (BitVec.toNat_ofNat _ _).trans (Nat.mod_eq_of_lt (show _ < 65536 by omega))

theorem groupI4_toNat (int : Byte) : (groupI4 int).toNat = int.toNat / 16 := by
  have hint := int.isLt
  exact (BitVec.toNat_ofNat _ _).trans (Nat.mod_eq_of_lt (show _ < 65536 by omega))

theorem groupI8_toNat (int : Byte) : (groupI8 int).toNat = int.toNat := by
  have hint := int.isLt
  rw [groupI8, Nat.mod_eq_of_lt hint]
  exact (BitVec.toNat_ofNat _ _).trans (Nat.mod_eq_of_lt (show _ < 65536 by omega))

theorem groupIa4_toNat (int : Byte) (a1 : BitVec 1) :
    (groupIa4 int a1).toNat = (int.toNat / 32) <<< 1 ||| a1.toNat := by
  have hint := int.isLt
  have ha1 := a1.isLt
  rw [groupIa4, BitVec.toNat_ofNat, Nat.shiftLeft_eq]
  exact Nat.mod_eq_of_lt (Nat.or_lt_two_pow (by omega) (by omega))

theorem groupIa8_toNat (int a : Byte) :
    (groupIa8 int a).toNat = (int.toNat / 16) <<< 4 ||| a.toNat / 16 := by
  have hint := int.isLt
  have ha := a.isLt
  rw [groupIa8, BitVec.toNat_ofNat, Nat.shiftLeft_eq]
  exact Nat.mod_eq_of_lt (Nat.or_lt_two_pow (by omega) (by omega))

/-! `RGBA5551` as concatenated fields (R76). -/

theorem toNat_append_eq_mul_add {m n : Nat} (x : BitVec m) (y : BitVec n) :
    (x ++ y).toNat = x.toNat * 2 ^ n + y.toNat := by
  rw [BitVec.toNat_append, ← Nat.shiftLeft_add_eq_or_of_lt y.isLt, Nat.shiftLeft_eq]

/-- The field `[7:3]` of a channel is the channel divided by 8 (R63). -/
theorem extractLsb'_three_five_toNat (x : Byte) : (x.extractLsb' 3 5).toNat = x.toNat / 8 := by
  have hx := x.isLt
  rw [BitVec.extractLsb'_toNat, Nat.shiftRight_eq_div_pow]
  exact Nat.mod_eq_of_lt (show _ < 32 by omega)

theorem groupRgba5551_eq_append (p : Sample) (a1 : BitVec 1) : groupRgba5551 p a1 =
    p.r.extractLsb' 3 5 ++ p.g.extractLsb' 3 5 ++ p.b.extractLsb' 3 5 ++ a1 := by
  apply BitVec.eq_of_toNat_eq
  simp only [groupRgba5551_toNat, toNat_append_eq_mul_add, extractLsb'_three_five_toNat]
  omega

/-! The five encoders. -/

/-- Settles O8: the 16 bits of `BG` hold the sum, and each term is a field at its own place (R76). -/
theorem encRgba5551PacksFiveBitFields : Obligations.EncRgba5551PacksFiveBitFields := by
  refine ⟨decode_fmt_code .rgba5551, fun s => ⟨_, exec_encRgba5551 s, ?_,
    groupRgba5551_eq_append s.px s.px.alphaBit, s.px.alphaBit_toNat, rfl⟩⟩
  rw [State.setBg_bg, enc, groupRgba5551_toNat, s.px.alphaBit_toNat]

/-- Settles O9, by the layout of `I4` over the intensity (R77). -/
theorem encI4TakesSixteenths : Obligations.EncI4TakesSixteenths := by
  refine ⟨decode_fmt_code .i4, fun s => ⟨_, exec_encI4 s, ?_, enc_toNat_lt .i4 s.px,
    s.px.intensity_toNat, rfl⟩⟩
  rw [State.setBg_bg, enc, groupI4_toNat, s.px.intensity_toNat]

/-- Settles O10: the truncation of R78 removes nothing from the byte `INT`. -/
theorem encI8IsTheIntensity : Obligations.EncI8IsTheIntensity := by
  refine ⟨decode_fmt_code .i8, fun s => ⟨_, exec_encI8 s, ?_, enc_toNat_lt .i8 s.px,
    s.px.intensity_toNat, rfl⟩⟩
  rw [State.setBg_bg, enc, groupI8_toNat, s.px.intensity_toNat]

/-- Settles O11, by the layout of `IA4` over the intensity and the bit of alpha (R79, R81). -/
theorem encIa4JoinsThreeBitsAndAlpha : Obligations.EncIa4JoinsThreeBitsAndAlpha := by
  refine ⟨decode_fmt_code .ia4, fun s => ⟨_, exec_encIa4 s, ?_, enc_toNat_lt .ia4 s.px,
    s.px.intensity_toNat, s.px.alphaBit_toNat, rfl⟩⟩
  rw [State.setBg_bg, enc, groupIa4_toNat, s.px.intensity_toNat, s.px.alphaBit_toNat]

/-- Settles O12, by the layout of `IA8` over the intensity and the alpha (R80, R82). -/
theorem encIa8JoinsFourAndFourBits : Obligations.EncIa8JoinsFourAndFourBits := by
  refine ⟨decode_fmt_code .ia8, fun s => ⟨_, exec_encIa8 s, ?_, enc_toNat_lt .ia8 s.px,
    s.px.intensity_toNat, rfl⟩⟩
  rw [State.setBg_bg, enc, groupIa8_toNat, s.px.intensity_toNat]

end Sys2Proof.Machine

namespace Sys2Proof.Machine

/-! The packer's operations as pieces over `put` (R95 to R98). -/

variable {s : State} {b : Byte} {i : Instr} {rest : List Bool}

theorem exec_emit16 (s : State) : exec .emit16 s =
    .next ((put (groupHigh s.bg) s).andThen (put (groupLow s.bg))).state := rfl

theorem exec_emit8 (s : State) : exec .emit8 s = .next (put (groupLow s.bg) s).state := rfl

theorem exec_emit4_of_not_pend (h : s.pend = false) :
    exec .emit4 s = .next (s.setHeld (groupNibble s.bg <<< 4) true) := if_neg (by simp [h])

theorem exec_emit4_of_pend (h : s.pend = true) : exec .emit4 s =
    .next ((put (s.acc ||| groupNibble s.bg) s).andThen
      fun t => .goesOn (t.setHeld 0 false)).state := if_pos h

theorem exec_flush4_of_not_pend (h : s.pend = false) : exec .flush4 s = .next s :=
  if_neg (by simp [h])

theorem exec_flush4_of_pend (h : s.pend = true) : exec .flush4 s =
    .next ((put s.acc s).andThen fun t => .goesOn (t.setHeld 0 false)).state := if_pos h

/-- A refused byte raises `SinkFailure`; beside it only the environment changes, and whether the byte
stands in the storage is open (R90, R132; log entry 9). -/
theorem put_refused_frame (h : s.env.writeAns = false :: rest) :
    ∃ t, put b s = .raised t ∧
      t = { s with
        errcode := 3, phase := .err,
        env := { s.env with
          writeAns := rest, draws := t.env.draws, snk := t.env.snk,
          events := s.env.events ++ [.sinkWrite b false] } } ∧
      (t.env.snk = s.env.snk ∨ t.env.snk = s.env.snk ++ [(Mem.endAddr s.env.snk, b)]) := by
  obtain ⟨snk, hsnk, hput⟩ := put_refused (b := b) h
  exact ⟨_, hput, rfl, hsnk⟩

/-! The nibbles of a byte (R97). -/

theorem groupNibble_eq_append (g : Group) : groupNibble g = 0#4 ++ g.extractLsb' 0 4 :=
  BitVec.setWidth_eq_append (by decide)

theorem groupNibble_shiftLeft (g : Group) : groupNibble g <<< 4 = g.extractLsb' 0 4 ++ 0#4 := by
  rw [groupNibble_eq_append, BitVec.shiftLeft_eq_concat_of_lt (by decide),
    BitVec.extractLsb'_append_eq_right]
  rfl

/-! The three emitters. -/

theorem exec_emit16_of_accepted (h : s.env.writeAns = true :: rest) : exec .emit16 s =
    .next (put (groupLow s.bg)
      (s.setEnv (s.env.afterAccepted (groupHigh s.bg) rest s.env.draws)).countByte).state := by
  rw [exec_emit16, put_accepted h, Flow.goesOn_andThen]

/-- Two bytes appended stand at the first two free addresses (R33). -/
theorem Mem.append_append {n : Nat} (m : List (Nat × BitVec n)) (v w : BitVec n) :
    Mem.append (Mem.append m v) w =
      m ++ [(Mem.endAddr m, v), (Mem.endAddr m + 1, w)] := by
  rw [Mem.append, Mem.endAddr_append, Mem.append, List.append_assoc]
  rfl

/-- Settles O15, by the answers to the two writes: the second `put` starts from the state the first one
leaves, if it was accepted (R95). -/
theorem emitSixteenWritesHighByteFirst : Obligations.EmitSixteenWritesHighByteFirst := by
  refine ⟨fun c => decode_internal_eq_ok_iff.trans ?_, fun s rest => ⟨fun h => ?_, fun h => ?_,
    fun h => ?_⟩⟩
  · revert c
    decide
  · rw [exec_emit16_of_accepted h, put_accepted rfl]
    simp [Env.afterAccepted, Mem.append_append, State.setEnv, State.countByte, groupHigh, groupLow]
  · obtain ⟨t, hput, ht, hsnk⟩ := put_refused_frame (b := groupHigh s.bg) h
    exact ⟨t, by rw [exec_emit16, hput]; rfl, ht, hsnk⟩
  · obtain ⟨t, hput, ht, hsnk⟩ := put_refused_frame (b := groupLow s.bg)
      (s := (s.setEnv (s.env.afterAccepted (groupHigh s.bg) (false :: rest) s.env.draws)).countByte)
      rfl
    refine ⟨t, by rw [exec_emit16_of_accepted h, hput]; rfl, ?_,
      hsnk.imp_right fun h => h.trans (Mem.append_append _ _ _)⟩
    simpa [Env.afterAccepted, State.setEnv, State.countByte, groupHigh, groupLow] using ht

/-- Settles O16, by the answer to the one write (R96). -/
theorem emitEightWritesOneByte : Obligations.EmitEightWritesOneByte := by
  refine ⟨fun c => decode_internal_eq_ok_iff.trans ?_, fun s rest => ⟨fun h => ?_, fun h => ?_⟩⟩
  · revert c
    decide
  · rw [exec_emit8, put_accepted h]
    rfl
  · obtain ⟨t, hput, ht, hsnk⟩ := put_refused_frame (b := groupLow s.bg) h
    exact ⟨t, by rw [exec_emit8, hput]; rfl, ht, hsnk⟩

/-- Settles O17, by whether a nibble is held and by the answer to the write (R97). -/
theorem emitFourHoldsThenCompletes : Obligations.EmitFourHoldsThenCompletes := by
  refine ⟨fun c => decode_internal_eq_ok_iff.trans ?_, fun s rest => ⟨fun hp => ?_, fun hp h => ?_,
    fun hp h => ?_⟩⟩
  · revert c
    decide
  · rw [exec_emit4_of_not_pend hp, groupNibble_shiftLeft]
    rfl
  · rw [exec_emit4_of_pend hp, put_accepted h, groupNibble_eq_append]
    rfl
  · obtain ⟨t, hput, ht, hsnk⟩ := put_refused_frame
      (b := s.acc ||| (0#4 ++ s.bg.extractLsb' 0 4)) h
    exact ⟨t, by rw [exec_emit4_of_pend hp, groupNibble_eq_append, hput]; rfl, ht, hsnk⟩

/-! Whatever the sink answers. -/

/-- Everything an emitter or the flush can do: all its bytes are accepted, or one is refused (R95 to
R98). -/
theorem exec_packer_cases (hi : i ∈ [.emit16, .emit8, .emit4, .flush4]) (s : State) :
    (∃ new acc pend e, s.env.Wrote e (acceptedWrites new) ∧
      exec i s = .next { s with
        bcnt := s.bcnt + new.length, acc := acc, pend := pend, env := e }) ∨
    (∃ new b e, s.env.Wrote e (acceptedWrites new ++ [.sinkWrite b false]) ∧
      exec i s = .next { s with
        bcnt := s.bcnt + new.length,
        errcode := errorCode .sinkFailure, phase := .err, env := e }) := by
  have hi' : (∃ f : Format, i = f.widthClass.emitter) ∨ i = .flush4 := by
    simp only [List.mem_cons, List.not_mem_nil, or_false] at hi
    rcases hi with rfl | rfl | rfl | rfl
    · exact .inl ⟨.rgba5551, rfl⟩
    · exact .inl ⟨.i8, rfl⟩
    · exact .inl ⟨.i4, rfl⟩
    · exact .inr rfl
  rcases hi' with ⟨f, rfl⟩ | rfl
  · rcases exec_emitter_cases f s with ⟨new, acc, pend, e, -, hx⟩ | ⟨new, b, e, -, hx⟩
    · exact .inl ⟨new, acc, pend, e, hx⟩
    · exact .inr ⟨new, b, e, hx⟩
  · rcases Bool.eq_false_or_eq_true s.pend with hp | hp
    · rw [exec_flush4_of_pend hp]
      rcases put_wrote s.acc s with ⟨e, hput, hw⟩ | ⟨e, hput, hw⟩ <;> rw [hput]
      · exact .inl ⟨[s.acc], 0, false, e, hw, rfl⟩
      · exact .inr ⟨[], s.acc, e, hw, rfl⟩
    · exact .inl ⟨[], s.acc, s.pend, s.env, ⟨(List.append_nil _).symm, rfl, rfl, rfl⟩,
        exec_flush4_of_not_pend hp⟩

/-- Settles O21: the accepted bytes are those of the events recorded, all of them or those before the
refused one (R95 to R98). -/
theorem emittersCompleteWhateverTheSinkAnswers :
    Obligations.EmittersCompleteWhateverTheSinkAnswers := by
  intro i s hi
  rcases exec_packer_cases hi s with ⟨new, acc, pend, e, hw, hx⟩ | ⟨new, b, e, hw, hx⟩ <;>
    refine ⟨_, new, hx, hw.written ?_ rfl, rfl, ?_, rfl, rfl, rfl, rfl, rfl, rfl, rfl, rfl, rfl, rfl,
      rfl⟩
  · exact acceptedWrites_bytes new
  · exact .inl ⟨rfl, rfl⟩
  · rw [acceptedByte_append, acceptedWrites_bytes]
    exact List.append_nil new
  · exact .inr ⟨rfl, rfl, rfl, rfl⟩

/-! The iterator's advance. -/

/-- Settles O19, by whether the row is complete (R92). -/
theorem nextAdvancesRowMajor : Obligations.NextAdvancesRowMajor := by
  refine ⟨fun f => ?_, fun s => ⟨fun h => ?_, fun h => ?_⟩⟩
  · rw [pixelOps_of_formatOf (formatOf_code f)]
    rfl
  · exact congrArg Host.Outcome.next (if_pos h)
  · exact congrArg Host.Outcome.next (if_neg h)

end Sys2Proof.Machine

namespace Sys2Proof.Machine

variable {s : State} {f : Format} {ps : List Sample}

/-! The nibble left over (R98, R104). -/

/-- A held nibble stands above four zero bits (R22). -/
theorem packing_acc_eq_append (h : (packing f ps).pend = true) :
    (packing f ps).acc = (groupAt f ps (ps.length - 1)).extractLsb' 0 4 ++ 0#4 :=
  (packing_acc_eq_groupAt h).trans (groupNibble_shiftLeft _)

/-- Settles O52: a nibble is left over, the last pixel's, and it is the last byte (R98, U5). -/
theorem oddStreamEndsInAZeroNibble : Obligations.OddStreamEndsInAZeroNibble := by
  intro f ps p hc hodd
  have hpend : (packing f (ps ++ [p])).pend = true := by
    rw [packing_pend, decide_eq_true hc, decide_eq_true hodd]
    rfl
  rw [pack_of_pend hpend, List.getLast?_concat, packing_acc_of_pend f ps p hpend,
    groupNibble_shiftLeft]

/-- The pixels of the open image, counted by the registers (R93). -/
theorem IteratorInv.pixels_length (h : IteratorInv s) :
    s.env.image.pixels.length = s.width * s.height :=
  (Image.pixels_length _).trans h.pixelCount_eq_count.symm

/-- With every pixel handled the packer holds what packing the whole image leaves over (R104). -/
theorem PackerInv.held_of_all_handled (h : PackerInv f s) (hn : s.idx = s.env.image.count) :
    s.acc = (packing f s.env.image.pixels).acc ∧ s.pend = (packing f s.env.image.pixels).pend := by
  have hall : s.env.image.pixels.take s.idx = s.env.image.pixels := by
    rw [hn, ← Image.pixels_length, List.take_length]
  exact ⟨hall ▸ h.acc_eq, hall ▸ h.pend_eq⟩

/-- Settles O18: in `FLUSH` what is held is what packing the whole image leaves over, and `FLUSH4`
writes it with one `put` (R98). -/
theorem flushWritesTheHeldNibble : Obligations.FlushWritesTheHeldNibble := by
  refine ⟨fun c => decode_internal_eq_ok_iff.trans ?_, fun s f hi hp hf => ?_,
    fun s rest => ⟨exec_flush4_of_not_pend, fun hp h => ?_, fun hp h => ?_⟩⟩
  · revert c
    decide
  · obtain ⟨hit, hn, f', hf', hpk⟩ := hi.flushing hp
    obtain rfl : f' = f := Option.some.inj (hf'.symm.trans hf)
    obtain ⟨hacc, hpend⟩ := hpk.held_of_all_handled hn
    rw [hacc, hpend]
    refine ⟨?_, fun h => ?_, packing_acc_of_not_pend _ _⟩
    · rw [packing_pend, hit.pixels_length, Bool.and_eq_true, decide_eq_true_eq, decide_eq_true_eq]
    · rw [packing_acc_eq_append h]
      exact BitVec.extractLsb'_append_eq_right
  · rw [exec_flush4_of_pend hp, put_accepted h]
    rfl
  · obtain ⟨t, hput, ht, hsnk⟩ := put_refused_frame (b := s.acc) h
    exact ⟨t, by rw [exec_flush4_of_pend hp, hput]; rfl, ht, hsnk⟩

/-! The end of a conversion. -/

/-- Settles O53: `CLOSE` accepts no byte, so in `DONE` the stream stands as `FLUSH` left it, whole (R101,
R114). -/
theorem doneMeansTheWholeStream : Obligations.DoneMeansTheWholeStream := by
  intro s t hi hm hp h ht
  obtain ⟨hit, hn, hacc, hpd, f, hf, hw⟩ := hi.closing hp
  have hlen : s.written.length = streamLength f (s.width * s.height) := by
    rw [hw, packLengthIsExact, hit.pixels_length]
  rw [step_noMoves hm, coreStep, hp] at h
  rcases closeStep_cases s with ⟨e, hev, hs⟩ | ⟨e, -, hs⟩ <;> cases hs.symm.trans h
  · have hsame : State.written { s with phase := .done, env := e } = s.written :=
      hev.written_same rfl rfl
    have himg : e.image.pixels = s.env.image.pixels := congrArg Image.pixels hev.image
    refine ⟨hi.errcode_eq_zero (by simp [hp]), hpd, hacc,
      hn.trans hit.pixelCount_eq_count.symm, f, hf, ?_, hi.count.trans hlen, ?_, fun k hk => ?_⟩
    · rw [hsame, hw, himg]
    · rw [hsame, hlen]
      rfl
    · rw [hsame, hlen, ← hit.pixels_length] at hk
      rw [hsame, hw, himg]
      exact packMeetsTheStreamMap f _ k hk
  · cases ht

/-- `FLUSH` with no nibble held only moves on (R113). -/
theorem flushStep_nothing_held (hp : s.phase = .flush) (hpd : s.pend = false) :
    flushStep s = .next (s.setPhase .close) := by
  rw [flushStep, exec_flush4_of_not_pend hpd, unlessRaised_next_of_ne _ (by simp [hp])]

/-- `CLOSE` when the sink's answer is `ok` (R114). -/
theorem closeStep_accepted {cl : List Bool} (h : s.env.closeAns = true :: cl) :
    closeStep s = .next ((s.setEnv ({ s.env with closeAns := cl }.log (.sinkClose true))).setPhase
      .done) := by
  rw [closeStep, State.sinkClose, h]
  rfl

/-- Before the first pixel nothing is accepted and no nibble is held (R100). -/
theorem PackerInv.nothing_at_start (h : PackerInv f s) (hi : s.idx = 0) :
    s.written = [] ∧ s.pend = false := by
  obtain ⟨hout, -, hpend⟩ := h
  rw [hi] at hout hpend
  exact ⟨hout, hpend⟩

/-- Settles O27: with no pixel left at the first one and no nibble held, `RUN` and `FLUSH` only move on,
and `CLOSE` makes the one request (R93, D5). -/
theorem emptyImageGivesAnEmptyStream : Obligations.EmptyImageGivesAnEmptyStream := by
  intro s cl hi hm hp hidx hdim hcl
  obtain ⟨-, f, -, hpk⟩ := hi.running hp
  obtain ⟨hw, hpd⟩ := hpk.nothing_at_start hidx
  have hnone : s.idx = s.pixelCount := by
    rw [hidx, State.pixelCount_eq, eq_comm, Nat.mul_eq_zero]
    exact hdim
  have hrun : step s = .next (s.setPhase .flush) := by
    rw [step_noMoves hm, coreStep, hp]
    exact runStep_no_pixel_left hnone
  have hflush : step (s.setPhase .flush) = .next (s.setPhase .close) :=
    (step_noMoves (s := s.setPhase .flush) hm).trans (flushStep_nothing_held rfl hpd)
  have hclose := (step_noMoves (s := s.setPhase .close) hm).trans (closeStep_accepted hcl)
  refine ⟨_, (run_of_step 2 hrun).trans ((run_of_step 1 hflush).trans (run_of_step 0 hclose)),
    rfl, ?_, ?_, rfl, rfl⟩
  · exact (State.written_append (s := s) (evs := [.sinkClose true]) rfl).trans
      (by rw [hw]; rfl)
  · exact hi.count.trans (congrArg List.length hw)

end Sys2Proof.Machine

namespace Sys2Proof.Machine

variable {s t : State} {e : Env} {f : Format} {img : Image} {i : Nat}

/-! The events of one pixel (R122). -/

theorem historyUpTo_succ (f : Format) (img : Image) (n : Nat) :
    historyUpTo f img (n + 1) = historyUpTo f img n ++ pixelEvents f img n := by
  simp [historyUpTo, List.range_succ]

theorem historyUpTo_mono {m n : Nat} (h : m ≤ n) : historyUpTo f img m <+: historyUpTo f img n := by
  induction n, h using Nat.le_induction with
  | base => exact List.prefix_rfl
  | succ n _ ih => exact ih.trans (historyUpTo_succ f img n ▸ List.prefix_append _ _)

theorem historyUpTo_isPrefix_fullHistory (h : i ≤ img.count) :
    historyUpTo f img i <+: fullHistory f img := by
  rw [fullHistory, List.append_assoc]
  exact (historyUpTo_mono h).trans (List.prefix_append _ _)

theorem groupAt_take {ps : List Sample} {n : Nat} (h : i < n) :
    groupAt f (ps.take n) i = groupAt f ps i := by
  rw [groupAt, groupAt, List.getElem?_take_of_lt h]

/-- The packer holds a nibble exactly before the odd pixels of a 4-bit format (R104). -/
theorem packing_take_pend (hi : i ≤ img.count) :
    (packing f (img.pixels.take i)).pend =
      (decide (f.widthClass = .w4) && decide (i % 2 = 1)) := by
  rw [packing_pend, List.length_take_of_le (by simpa using hi)]

/-- What the emitter writes for the pixel at `i`, when it starts from what the pixels before left, is what
the history lists for that pixel (R97, R122). -/
theorem pixelEvents_of_emits {new : List Byte} {acc : Byte} {pend : Bool} (hlt : i < img.count)
    (hem : Emits f (enc f (Sample.ofWord (img.at i))) (packing f (img.pixels.take i)).acc
      (packing f (img.pixels.take i)).pend new acc pend) :
    pixelEvents f img i =
      .srcRead (i / img.width) (i % img.width) (img.at i) :: acceptedWrites new := by
  have hpend := packing_take_pend (f := f) hlt.le
  rw [pixelEvents, groupAt_pixels f hlt]
  unfold Emits at hem
  cases hc : f.widthClass <;> simp only [hc] at hem hpend ⊢
  case w16 => rw [hem.1]; rfl
  case w8 => rw [hem.1]; rfl
  case w4 =>
    rcases hem with ⟨hp, rfl, -⟩ | ⟨hp, rfl, -⟩
    · have hodd : i % 2 = 1 := by simpa [hp] using hpend
      have hacc := packing_acc_eq_groupAt hp
      rw [List.length_take_of_le (by simpa using hlt.le), groupAt_take (by omega)] at hacc
      rw [if_neg (by omega), hacc]
      rfl
    · have heven : i % 2 = 0 := by simpa [hp] using hpend
      rw [if_pos heven]
      rfl

/-- An emitter that stops at a refused byte would have gone on to write its bit-group whole (R95 to R97). -/
theorem EmitStops.isPrefix_emits {g : Group} {acc b : Byte} {pend : Bool} {pre : List Byte}
    (h : EmitStops f g acc pend pre b) :
    ∃ new acc' pend', Emits f g acc pend new acc' pend' ∧ pre ++ [b] <+: new := by
  unfold EmitStops at h
  unfold Emits
  cases hc : f.widthClass <;> simp only [hc] at h ⊢
  case w16 =>
    refine ⟨_, acc, pend, ⟨rfl, rfl, rfl⟩, ?_⟩
    rcases h with ⟨rfl, rfl⟩ | ⟨rfl, rfl⟩ <;> simp
  case w8 => exact ⟨_, acc, pend, ⟨rfl, rfl, rfl⟩, by simp [h.1, h.2]⟩
  case w4 =>
    obtain ⟨hp, rfl, rfl⟩ := h
    exact ⟨_, 0, false, .inl ⟨hp, rfl, rfl, rfl⟩, by simp⟩

/-- The iterator names the pixel at `IDX` (R32, R94). -/
theorem IteratorInv.row_col_eq (h : IteratorInv s) (hn : s.idx ≠ s.pixelCount) :
    s.idx / s.width = s.row ∧ s.idx % s.width = s.col := by
  have hc := (h.inside hn).2
  refine (Nat.div_mod_unique (Nat.zero_lt_of_lt hc)).2 ⟨?_, hc⟩
  rw [h.flat, Nat.mul_comm s.width, Nat.add_comm]

/-! What suffices for the invariant of the history in a given phase. -/

theorem HistoryInv.of_before (hp : t.phase = .idle ∨ t.phase = .check) (he : t.env.events = []) :
    HistoryInv t := by
  refine ⟨fun _ => he, ?_, ?_, ?_, ?_, ?_⟩ <;> rcases hp with hp | hp <;> simp [hp]

theorem HistoryInv.of_run (hp : t.phase = .run) (hf : formatOf t.fmt = some f)
    (he : t.env.events = historyUpTo f t.env.image t.idx) : HistoryInv t := by
  refine ⟨?_, fun _ => ⟨f, hf, he⟩, ?_, ?_, ?_, ?_⟩ <;> simp [hp]

theorem HistoryInv.of_flush (hp : t.phase = .flush) (hf : formatOf t.fmt = some f)
    (he : t.env.events = historyUpTo f t.env.image t.env.image.count) : HistoryInv t := by
  refine ⟨?_, ?_, fun _ => ⟨f, hf, he⟩, ?_, ?_, ?_⟩ <;> simp [hp]

theorem HistoryInv.of_close (hp : t.phase = .close) (hf : formatOf t.fmt = some f)
    (he : t.env.events = historyUpTo f t.env.image t.env.image.count ++ flushEvents f t.env.image) :
    HistoryInv t := by
  refine ⟨?_, ?_, ?_, fun _ => ⟨f, hf, he⟩, ?_, ?_⟩ <;> simp [hp]

theorem HistoryInv.of_done (hp : t.phase = .done)
    (he : t.env.events = fullHistory f t.env.image) : HistoryInv t := by
  refine ⟨?_, ?_, ?_, ?_, fun _ => ⟨f, he⟩, ?_⟩ <;> simp [hp]

theorem HistoryInv.of_err (hp : t.phase = .err) (ha : t.abortedHistory) : HistoryInv t := by
  refine ⟨?_, ?_, ?_, ?_, ?_, fun _ => ha⟩ <;> simp [hp]

/-- A sink's refusal ends a first part of the favourable history (R130, R132). -/
theorem HistoryInv.of_sinkFailed {h : List Event} {ev : Event} (hp : t.phase = .err)
    (hc : t.errcode = errorCode .sinkFailure) (he : t.env.events = h ++ [ev])
    (hev : ev.sinkFailed = true) (hpre : h ++ [ev.accepted] <+: fullHistory f t.env.image) :
    HistoryInv t :=
  .of_err hp (.inr (.inr ⟨hc, f, h, ev, he, hev, hpre⟩))

theorem HistoryInv.setEnv (h : HistoryInv s) (he : e.events = s.env.events)
    (hi : e.image = s.env.image) : HistoryInv (s.setEnv e) := by
  obtain ⟨hbefore, hrun, hflush, hclose, hdone, herr⟩ := h
  constructor <;> simp only [State.abortedHistory, State.setEnv_env, he, hi] <;> assumption

/-! The core's steps. -/

/-- `CHECK` records the answers it got, from nothing on, and stops at the first failure (R111). -/
theorem checkStep_keeps_historyInv (hi : ConvInv s) (hh : HistoryInv s) (hp : s.phase = .check)
    (h : checkStep s = .next t) : HistoryInv t := by
  have hnone := hh.before (.inr hp)
  obtain ⟨-, -, hidx, -⟩ := hi.fresh hp
  rcases checkStep_cases s with ⟨-, hs⟩ | ⟨-, -, e, hev, hs⟩ | ⟨f, -, e, hev, -, hs⟩ |
    ⟨f, hf, e, hev, -, hs⟩ <;> cases hs.symm.trans h
  · exact .of_err rfl (.inl ⟨rfl, hnone⟩)
  · have hev := hev.events
    rw [hnone] at hev
    exact .of_err rfl (.inr (.inl ⟨rfl, hev⟩))
  · rw [hnone] at hev
    refine .of_sinkFailed (f := f) (h := [.srcOpen (some (e.image.width, e.image.height))]) rfl rfl
      hev rfl ?_
    exact historyUpTo_isPrefix_fullHistory (Nat.zero_le _)
  · rw [hnone] at hev
    refine .of_run rfl hf (hev.trans ?_)
    show _ = historyUpTo f e.image s.idx
    rw [hidx]
    rfl

/-- `RUN` adds the events of the pixel at `IDX`, or those up to a refused byte, or finds no pixel left
(R112). -/
theorem runStep_keeps_historyInv (hi : ConvInv s) (hh : HistoryInv s) (hp : s.phase = .run)
    (h : runStep s = .next t) : HistoryInv t := by
  obtain ⟨hit, f, hf, hpk⟩ := hi.running hp
  obtain ⟨f', hf', hist⟩ := hh.running hp
  obtain rfl : f' = f := Option.some.inj (hf'.symm.trans hf)
  have hN := hit.pixelCount_eq_count
  by_cases hn : s.idx = s.pixelCount
  · cases (runStep_no_pixel_left hn).symm.trans h
    rw [hn, hN] at hist
    exact .of_flush rfl hf hist
  · obtain ⟨hr, hc⟩ := hit.inside hn
    have hlt : s.idx < s.env.image.count := hN ▸ lt_of_le_of_ne hit.idx_le_pixelCount hn
    obtain ⟨hrow, hcol⟩ := hit.row_col_eq hn
    obtain ⟨w, px, sum, int, a1, rfl, rfl, hs⟩ :=
      runStep_cases hp hf hn (hit.height_eq ▸ hr) (hit.width_eq ▸ hc)
    rw [← hit.width_eq, ← hit.flat, hpk.acc_eq, hpk.pend_eq] at hs
    have hpixel {new : List Byte} {acc : Byte} {pend : Bool}
        (hem : Emits f' (enc f' (Sample.ofWord (s.env.image.at s.idx)))
          (packing f' (s.env.image.pixels.take s.idx)).acc
          (packing f' (s.env.image.pixels.take s.idx)).pend new acc pend) :
        historyUpTo f' s.env.image (s.idx + 1) = s.env.events ++
          .srcRead s.row s.col (s.env.image.at s.idx) :: acceptedWrites new := by
      rw [historyUpTo_succ, pixelEvents_of_emits hlt hem, hist, ← hit.width_eq, hrow, hcol]
    rcases hs with ⟨new, acc, pend, e, hem, hev, hs⟩ | ⟨pre, b, e, hst, hev, hs⟩ <;>
      cases hs.symm.trans h
    · refine .of_run (f := f') (by simpa using hp) (by simpa using hf) ?_
      simp only [State.advance_env, State.advance_idx]
      rw [hev.events, hev.image, hpixel hem]
    · obtain ⟨new, acc, pend, hem, hpre⟩ := hst.isPrefix_emits
      refine .of_sinkFailed (f := f') (ev := .sinkWrite b false)
        (h := s.env.events ++ .srcRead s.row s.col (s.env.image.at s.idx) :: acceptedWrites pre)
        rfl rfl (by rw [hev.events]; simp) rfl ?_
      rw [hev.image]
      refine List.IsPrefix.trans ?_ (historyUpTo_isPrefix_fullHistory (Nat.succ_le_of_lt hlt))
      rw [hpixel hem]
      simpa [acceptedWrites, Event.accepted] using hpre.map fun b => Event.sinkWrite b true

theorem flushEvents_of_pend (h : (packing f img.pixels).pend = true) :
    flushEvents f img = [.sinkWrite (packing f img.pixels).acc true] := by
  simp [flushEvents, h]

theorem flushEvents_of_not_pend (h : (packing f img.pixels).pend = false) :
    flushEvents f img = [] := by
  simp [flushEvents, h]

/-- `FLUSH` adds the write of a nibble left over, if there is one (R113). -/
theorem flushStep_keeps_historyInv (hi : ConvInv s) (hh : HistoryInv s) (hp : s.phase = .flush)
    (h : flushStep s = .next t) : HistoryInv t := by
  obtain ⟨-, hn, f, hf, hpk⟩ := hi.flushing hp
  obtain ⟨f', hf', hist⟩ := hh.flushing hp
  obtain rfl : f' = f := Option.some.inj (hf'.symm.trans hf)
  obtain ⟨hacc, hpend⟩ := hpk.held_of_all_handled hn
  rcases flushStep_cases hp with ⟨hpd, hs⟩ | ⟨hpd, e, hev, hs⟩ | ⟨hpd, e, hev, hs⟩ <;>
    cases hs.symm.trans h <;> rw [hpd] at hpend
  · refine .of_close rfl hf (hist.trans ?_)
    rw [flushEvents_of_not_pend hpend.symm, List.append_nil]
  · refine .of_close (f := f') rfl hf ?_
    rw [hev.events, hev.image, hist, flushEvents_of_pend hpend.symm, hacc]
  · refine .of_sinkFailed (f := f') rfl rfl hev.events rfl ?_
    rw [hev.image, hist, fullHistory, flushEvents_of_pend hpend.symm, hacc]
    exact List.prefix_append _ _

/-- `CLOSE` adds the last request (R114). -/
theorem closeStep_keeps_historyInv (hh : HistoryInv s) (hp : s.phase = .close)
    (h : closeStep s = .next t) : HistoryInv t := by
  obtain ⟨f, -, hist⟩ := hh.closing hp
  rcases closeStep_cases s with ⟨e, hev, hs⟩ | ⟨e, hev, hs⟩ <;> cases hs.symm.trans h
  · refine .of_done (f := f) rfl ?_
    rw [hev.events, hev.image, hist]
    rfl
  · refine .of_sinkFailed (f := f) rfl rfl hev.events rfl ?_
    rw [hev.image, hist]
    exact List.prefix_rfl

theorem coreStep_keeps_historyInv (hi : ConvInv s) (hh : HistoryInv s) (h : coreStep s = .next t) :
    HistoryInv t := by
  cases hp : s.phase <;> simp only [coreStep, hp] at h
  case check => exact checkStep_keeps_historyInv hi hh hp h
  case run => exact runStep_keeps_historyInv hi hh hp h
  case flush => exact flushStep_keeps_historyInv hi hh hp h
  case close => exact closeStep_keeps_historyInv hh hp h
  all_goals cases h; exact hh

/-! The moves of the host. -/

/-- At rest the invariant says nothing of `FMT` (R11, R116). -/
theorem HistoryInv.setFmt (hh : HistoryInv s) (hb : s.phase.busy = false) (c : FmtCode) :
    HistoryInv (s.setFmt c) := by
  have hrest {p : Phase} (hp : s.phase = p) : p.busy = false := hp ▸ hb
  exact { hh with
    running := fun hp => nomatch hrest hp
    flushing := fun hp => nomatch hrest hp
    closing := fun hp => nomatch hrest hp }

theorem hostWrite_keeps_historyInv {reg word : Nat} (hh : HistoryInv s)
    (h : hostWrite reg word s = .next t) : HistoryInv t := by
  rcases hostWrite_cases h with rfl | ⟨hb, rfl⟩ | rfl
  · exact hh
  · exact hh.setFmt hb _
  · exact .of_before (.inr rfl) rfl

theorem moveStep_keeps_historyInv {m : Move} (hi : ConvInv s) (hh : HistoryInv s)
    (h : moveStep m s = .next t) : HistoryInv t := by
  cases m with
  | core => exact coreStep_keeps_historyInv hi hh h
  | write reg word => exact hostWrite_keeps_historyInv hh h
  | read reg => cases h; exact hh.setEnv rfl rfl
  | reset => cases h; exact .of_before (.inl rfl) rfl
  | sink content =>
    rw [moveStep] at h
    split at h <;> cases h
    exact hh.setEnv rfl rfl

/-- Settles O49, by the kind of move, and for the core's own step by its phase: each step adds to the
history what the favourable one lists next, or ends a first part of it with a refusal. -/
theorem stepKeepsHistoryInvariant : Obligations.StepKeepsHistoryInvariant := by
  intro s t hi hh h
  obtain ⟨m, ms, hm⟩ := step_eq_moveStep s
  exact moveStep_keeps_historyInv (hi.setMoves ms) (hh.setEnv rfl rfl) (hm.symm.trans h)

end Sys2Proof.Machine

namespace Sys2Proof.Machine

variable {s t : State} {f : Format}

/-! With no move given the step is the core's, by its phase (R119). -/

theorem step_of_check (hm : s.env.moves = []) (hp : s.phase = .check) : step s = checkStep s := by
  simp only [step_noMoves hm, coreStep, hp]

theorem step_of_run (hm : s.env.moves = []) (hp : s.phase = .run) : step s = runStep s := by
  simp only [step_noMoves hm, coreStep, hp]

theorem step_of_flush (hm : s.env.moves = []) (hp : s.phase = .flush) : step s = flushStep s := by
  simp only [step_noMoves hm, coreStep, hp]

theorem step_of_close (hm : s.env.moves = []) (hp : s.phase = .close) : step s = closeStep s := by
  simp only [step_noMoves hm, coreStep, hp]

theorem Phase.not_busy_iff (p : Phase) : p.busy = false ↔ p = .idle ∨ p = .done ∨ p = .err := by
  cases p <;> decide

theorem coreStep_of_not_busy (hb : s.phase.busy = false) : coreStep s = .next s := by
  rcases (Phase.not_busy_iff _).1 hb with hp | hp | hp <;> simp only [coreStep, hp]

/-! The steps of the core when the answers are given (R111, R113, R114). -/

theorem exists_formatOf_of_le {c : FmtCode} (h : c.toNat ≤ 4) : ∃ f, formatOf c = some f := by
  rw [← Option.ne_none_iff_exists', Ne, formatOf_eq_none_iff]
  omega

theorem checkStep_of_formatOf (h : formatOf s.fmt = some f) : checkStep s = .next (openPorts s) := by
  simp only [checkStep, h]

/-- `SrcOpen` when the source is unavailable (R121). -/
theorem State.srcOpen_unavailable {src : List (Option Image)} (h : s.env.sources = none :: src) :
    s.srcOpen = (none, s.setEnv ({ s.env with sources := src }.log (.srcOpen none))) := by
  rw [State.srcOpen, Env.drawSource, h]

/-- `SrcOpen` when the source answers with an image (R121). -/
theorem State.srcOpen_available {img : Image} {src : List (Option Image)}
    (h : s.env.sources = some img :: src) :
    s.srcOpen = (some (img.width, img.height), s.setEnv
      ({ s.env with sources := src, image := img }.log (.srcOpen (some (img.width, img.height))))) := by
  rw [State.srcOpen, Env.drawSource, h]

theorem State.sinkReady_answered {a : Bool} {rdy : List Bool} (h : s.env.readyAns = a :: rdy) :
    s.sinkReady = (a, s.setEnv ({ s.env with readyAns := rdy }.log (.sinkReady a))) := by
  rw [State.sinkReady, h]
  rfl

/-- With an image answered the dimensions are latched, and the sink's answer decides between `RUN` and
`SinkFailure` (R111). -/
theorem openPorts_answered {img : Image} {src : List (Option Image)} {a : Bool} {rdy : List Bool}
    (hs : s.env.sources = some img :: src) (hr : s.env.readyAns = a :: rdy) :
    ∃ t : State, openPorts s = (if a then t.setPhase .run else t.raise .sinkFailure) ∧
      t = { s with
        width := img.width, height := img.height,
        env := { s.env with
          sources := src, readyAns := rdy, image := img,
          events := s.env.events ++ [.srcOpen (some (img.width, img.height)), .sinkReady a] } } := by
  have hready := State.sinkReady_answered
    (s := (s.setEnv (({ s.env with sources := src, image := img } : Env).log
      (.srcOpen (some (img.width, img.height))))).setDims img.width img.height) hr
  rw [openPorts, State.srcOpen_available hs]
  dsimp only
  rw [hready]
  refine ⟨_, ?_, rfl⟩
  cases a <;> simp [State.setEnv, State.setDims, State.setPhase, State.raise, Env.log]

/-- Settles O26, by the format, then the source's answer, then the sink's (R111). -/
theorem checkStepOpensSourceThenSink : Obligations.CheckStepOpensSourceThenSink := by
  intro s img src rdy hm hp
  have hcheck (hc : s.fmt.toNat ≤ 4) : step s = .next (openPorts s) := by
    obtain ⟨f, hf⟩ := exists_formatOf_of_le hc
    exact (step_of_check hm hp).trans (checkStep_of_formatOf hf)
  refine ⟨step_check_reserved hm hp, fun hc hs => ?_, fun hc hs hr => ?_, fun hc hs hr => ?_⟩ <;>
    rw [hcheck hc]
  · rw [openPorts, State.srcOpen_unavailable hs]
    rfl
  · obtain ⟨t, ht, rfl⟩ := openPorts_answered hs hr
    rw [ht]
    rfl
  · obtain ⟨t, ht, rfl⟩ := openPorts_answered hs hr
    rw [ht]
    rfl

/-- Settles O30, by whether a nibble is held and by the answer to its write (R113). -/
theorem flushStepThenCloses : Obligations.FlushStepThenCloses := by
  intro s rest hm hp
  rw [step_of_flush hm hp]
  refine ⟨flushStep_nothing_held hp, fun hpd h => ?_, fun hpd h => ?_⟩
  · simp only [flushStep, exec_flush4_of_pend hpd, put_accepted h, Flow.goesOn_andThen,
      Flow.goesOn_state]
    exact unlessRaised_next_of_ne _ (by simp [hp])
  · obtain ⟨t, hput, ht, hsnk⟩ := put_refused_frame (b := s.acc) h
    refine ⟨t, ?_, ht, hsnk⟩
    simp only [flushStep, exec_flush4_of_pend hpd, hput, Flow.raised_andThen, Flow.raised_state]
    exact unlessRaised_next_of_err _ (by rw [ht])

/-! What the core's step keeps and records, phase by phase. -/

/-- `FMT` and the moves to come are kept, and the requests `evs` are added to the record. -/
structure Records (s t : State) (evs : List Event) : Prop where
  fmt : t.fmt = s.fmt
  moves : t.env.moves = s.env.moves
  events : t.env.events = s.env.events ++ evs

theorem Records.of_env_eq (hf : t.fmt = s.fmt) (he : t.env = s.env) : Records s t [] :=
  ⟨hf, congrArg Env.moves he, by rw [he, List.append_nil]⟩

/-- No request in the list closes the sink. -/
def ClosesNothing (evs : List Event) : Prop := ∀ ok, .sinkClose ok ∉ evs

theorem closesNothing_acceptedWrites (bs : List Byte) : ClosesNothing (acceptedWrites bs) := by
  simp [ClosesNothing, acceptedWrites]

theorem checkStep_records (h : checkStep s = .next t) :
    ∃ evs, Records s t evs ∧ ClosesNothing evs ∧ (t.phase = .run ∨ t.phase = .err) := by
  rcases checkStep_cases s with ⟨-, hs⟩ | ⟨-, -, e, hw, hs⟩ | ⟨-, -, e, hev, hm, hs⟩ |
    ⟨-, -, e, hev, hm, hs⟩ <;> cases hs.symm.trans h
  · exact ⟨[], .of_env_eq rfl rfl, nofun, .inr rfl⟩
  · exact ⟨_, ⟨rfl, hw.moves, hw.events⟩, by simp [ClosesNothing], .inr rfl⟩
  · exact ⟨_, ⟨rfl, hm, hev⟩, by simp [ClosesNothing], .inr rfl⟩
  · exact ⟨_, ⟨rfl, hm, hev⟩, by simp [ClosesNothing], .inl rfl⟩

/-- A reserved code's row raises and ends the pixel's operations (R54; log entry 14). -/
theorem runOps_pixelOps_reserved {c : FmtCode} (hc : formatOf c = none) (s : State) :
    runOps (pixelOps c) s = .next (s.raise .invalidFormat) := by
  rw [pixelOps_reserved hc, runOps, exec_decodeFmt_reserved hc]
  exact unlessRaised_next_of_err _ rfl

theorem runStep_records (hp : s.phase = .run) (h : runStep s = .next t) :
    ∃ evs, Records s t evs ∧ ClosesNothing evs ∧
      (t.phase = .run ∨ t.phase = .flush ∨ t.phase = .err) := by
  by_cases hn : s.idx = s.pixelCount
  · cases (runStep_no_pixel_left hn).symm.trans h
    exact ⟨[], .of_env_eq rfl rfl, nofun, .inr (.inl rfl)⟩
  by_cases hin : s.row < s.env.image.height ∧ s.col < s.env.image.width
  case neg => cases (runStep_outside hn hin).symm.trans h
  cases hf : formatOf s.fmt with
  | none =>
    obtain ⟨w, hs, -⟩ := runStep_pixel_left hn hin
    rw [runOps_pixelOps_reserved hf] at hs
    cases hs.symm.trans h
    exact ⟨[.srcRead s.row s.col w], ⟨rfl, rfl, rfl⟩, by simp [ClosesNothing], .inr (.inr rfl)⟩
  | some f =>
    have hno := closesNothing_acceptedWrites
    obtain ⟨w, px, sum, int, a1, -, -, ⟨new, _, _, e, -, hw, hs⟩ | ⟨pre, _, e, -, hw, hs⟩⟩ :=
      runStep_cases hp hf hn hin.1 hin.2 <;> cases hs.symm.trans h
    · refine ⟨_, ⟨by simp, by simpa using hw.moves, by simpa using hw.events⟩, ?_,
        .inl (by simpa using hp)⟩
      simpa [ClosesNothing] using hno new
    · refine ⟨_, ⟨rfl, hw.moves, hw.events⟩, ?_, .inr (.inr rfl)⟩
      simpa [ClosesNothing] using hno pre

theorem flushStep_records (hp : s.phase = .flush) (h : flushStep s = .next t) :
    ∃ evs, Records s t evs ∧ ClosesNothing evs ∧ (t.phase = .close ∨ t.phase = .err) := by
  rcases flushStep_cases hp with ⟨-, hs⟩ | ⟨-, e, hw, hs⟩ | ⟨-, e, hw, hs⟩ <;> cases hs.symm.trans h
  · exact ⟨[], .of_env_eq rfl rfl, nofun, .inl rfl⟩
  · exact ⟨_, ⟨rfl, hw.moves, hw.events⟩, by simp [ClosesNothing], .inl rfl⟩
  · exact ⟨_, ⟨rfl, hw.moves, hw.events⟩, by simp [ClosesNothing], .inr rfl⟩

theorem closeStep_records (h : closeStep s = .next t) :
    ∃ ok, Records s t [.sinkClose ok] ∧ (t.phase = .done ∨ t.phase = .err) := by
  rcases closeStep_cases s with ⟨e, hw, hs⟩ | ⟨e, hw, hs⟩ <;> cases hs.symm.trans h
  · exact ⟨true, ⟨rfl, hw.moves, hw.events⟩, .inl rfl⟩
  · exact ⟨false, ⟨rfl, hw.moves, hw.events⟩, .inr rfl⟩

/-- The sink is closed in `CLOSE` only, and `CLOSE` is entered from `FLUSH` only (R113, R114). -/
theorem coreStep_records (h : coreStep s = .next t) :
    ∃ evs, Records s t evs ∧ (s.phase ≠ .close → ClosesNothing evs) ∧
      (t.phase = .close → s.phase = .flush) := by
  cases hp : s.phase <;> simp only [coreStep, hp] at h
  case check =>
    obtain ⟨evs, hr, hc, ht⟩ := checkStep_records h
    exact ⟨evs, hr, fun _ => hc, by rcases ht with ht | ht <;> simp [ht]⟩
  case run =>
    obtain ⟨evs, hr, hc, ht⟩ := runStep_records hp h
    exact ⟨evs, hr, fun _ => hc, by rcases ht with ht | ht | ht <;> simp [ht]⟩
  case flush =>
    obtain ⟨evs, hr, hc, -⟩ := flushStep_records hp h
    exact ⟨evs, hr, fun _ => hc, fun _ => rfl⟩
  case close =>
    obtain ⟨ok, hr, ht⟩ := closeStep_records h
    exact ⟨_, hr, fun hne => absurd rfl hne, by rcases ht with ht | ht <;> simp [ht]⟩
  all_goals cases h; exact ⟨[], .of_env_eq rfl rfl, fun _ => nofun, by simp [hp]⟩

/-! What the moves of the host can do to the phase (R110, R145). -/

/-- A host write leaves the phase and the environment, or is an accepted `START` (R24, R110). -/
theorem hostWrite_start_or_keeps {reg word : Nat} (h : hostWrite reg word s = .next t) :
    (t.phase = s.phase ∧ t.env = s.env) ∨
    (reg = 1 ∧ word % 2 = 1 ∧ s.phase.busy = false ∧ t = s.beginRun) := by
  match reg with
  | 0 =>
    cases h
    unfold State.writeFmt
    split <;> exact .inl ⟨rfl, rfl⟩
  | 1 =>
    rw [hostWrite_ctrl] at h
    split at h
    · rename_i hw
      cases hb : s.phase.busy with
      | true => cases (exec_start_of_busy hb).symm.trans h; exact .inl ⟨rfl, rfl⟩
      | false => cases (exec_start_of_not_busy hb).symm.trans h; exact .inr ⟨rfl, hw, rfl, rfl⟩
    · cases h; exact .inl ⟨rfl, rfl⟩
  | n + 2 => cases h; exact .inl ⟨rfl, rfl⟩

/-- A move that is not the core's makes no request; it changes the phase as reset or, at rest, as an
accepted `START`. -/
theorem moveStep_host_cases {m : Move} (hm : m ≠ .core) (h : moveStep m s = .next t) :
    t.env.events ⊆ s.env.events ∧
    (t.phase = s.phase ∨ (m = .reset ∧ t.phase = .idle) ∨
      (s.phase.busy = false ∧ t.phase = .check ∧ ∃ w, w % 2 = 1 ∧ m = .write 1 w)) := by
  cases m with
  | core => exact absurd rfl hm
  | write reg word =>
    rcases hostWrite_start_or_keeps h with ⟨hp, he⟩ | ⟨rfl, hw, hb, rfl⟩
    · exact ⟨he ▸ List.Subset.refl _, .inl hp⟩
    · exact ⟨List.nil_subset _, .inr (.inr ⟨hb, rfl, word, hw, rfl⟩)⟩
  | read reg => cases h; exact ⟨List.Subset.refl _, .inl rfl⟩
  | reset => cases h; exact ⟨List.nil_subset _, .inr (.inl ⟨rfl, rfl⟩)⟩
  | sink content =>
    rw [moveStep] at h
    split at h <;> cases h
    exact ⟨List.Subset.refl _, .inl rfl⟩

/-! The statements about the phases. -/

/-- `CLOSE` when the sink refuses (R114). -/
theorem closeStep_refused {cl : List Bool} (h : s.env.closeAns = false :: cl) :
    closeStep s = .next
      ((s.setEnv ({ s.env with closeAns := cl }.log (.sinkClose false))).raise .sinkFailure) := by
  rw [closeStep, State.sinkClose, h]
  rfl

/-- Outside `CLOSE` the core's step does not close the sink (R114). -/
theorem coreStep_outside_close (hp : s.phase ≠ .close) (h : coreStep s = .next t) :
    (∀ ok, .sinkClose ok ∈ t.env.events → .sinkClose ok ∈ s.env.events) ∧
    (t.phase = .close → s.phase = .flush ∨ s.phase = .close) ∧
    (s.phase = .close → t.phase = .close ∨ ∃ rest, s.env.moves = .reset :: rest) := by
  obtain ⟨evs, hr, hno, hent⟩ := coreStep_records h
  refine ⟨fun ok hmem => ?_, fun ht => .inl (hent ht), fun hc => absurd hc hp⟩
  rw [hr.events, List.mem_append] at hmem
  exact hmem.resolve_right (hno hp ok)

/-- Settles O31, by the next move: the core's own outside `CLOSE` records no `SinkClose`, the host's none
at all; in `CLOSE` by the sink's answer (R114). -/
theorem closeStepFinishes : Obligations.CloseStepFinishes := by
  refine ⟨fun s t hne h => ?_, fun s rest hm hp => ?_⟩
  · cases hm : s.env.moves with
    | nil =>
      rw [step_noMoves hm] at h
      exact hm ▸ coreStep_outside_close (fun hp => hne ⟨hp, .inl hm⟩) h
    | cons m rest =>
      rw [step_move hm] at h
      by_cases hcore : m = .core
      · subst hcore
        have hp : s.phase ≠ .close := fun hp => hne ⟨hp, .inr ⟨rest, hm⟩⟩
        obtain ⟨hev, hent, -⟩ := coreStep_outside_close
          (s := s.setEnv { s.env with moves := rest }) hp h
        exact ⟨hev, hent, fun hc => absurd hc hp⟩
      · obtain ⟨hsub, hph⟩ := moveStep_host_cases hcore h
        refine ⟨fun ok hmem => hsub hmem, ?_, fun hc => ?_⟩
        · rcases hph with hph | ⟨-, hph⟩ | ⟨-, hph, -⟩ <;> rw [hph]
          exacts [.inr, nofun, nofun]
        · rcases hph with hph | ⟨rfl, -⟩ | ⟨hb, -⟩
          · exact .inl (hph.trans hc)
          · exact .inr ⟨rest, rfl⟩
          · exact nomatch (congrArg Phase.busy hc).symm.trans hb
  · rw [step_of_close hm hp]
    exact ⟨closeStep_accepted, closeStep_refused⟩

/-- Settles O32: the core does nothing at rest, and of the host's moves only reset and an accepted `START`
change the phase (R115). -/
theorem restingStatesAreLeftOnlyByStartOrReset :
    Obligations.RestingStatesAreLeftOnlyByStartOrReset := by
  refine ⟨fun s hm hp => ?_, fun s t m rest hp hm h hne => ?_⟩
  · rw [step_noMoves hm]
    exact coreStep_of_not_busy ((Phase.not_busy_iff _).2 (.inr hp))
  · rw [step_move hm] at h
    by_cases hcore : m = .core
    · subst hcore
      have hrest := coreStep_of_not_busy (s := s.setEnv { s.env with moves := rest })
        ((Phase.not_busy_iff _).2 (.inr hp))
      cases hrest.symm.trans h
      exact absurd rfl hne
    · rcases (moveStep_host_cases hcore h).2 with hph | ⟨rfl, -⟩ | ⟨-, -, hw⟩
      · exact absurd hph hne
      · exact .inl rfl
      · exact .inr hw

/-- Settles O22, by whether the core is busy (R110, R118). -/
theorem startBeginsOnlyWhenNotBusy : Obligations.StartBeginsOnlyWhenNotBusy := by
  refine fun s => ⟨fun hp => ?_, fun hp => exec_start_of_busy ((Phase.busy_iff _).2 hp)⟩
  exact ⟨_, exec_start_of_not_busy ((Phase.not_busy_iff _).2 hp), rfl⟩

/-- Of all moves only reset changes `FMT` while the core is busy (R116). -/
theorem moveStep_fmt_of_busy {m : Move} (hb : s.phase.busy = true) (hm : m ≠ .reset)
    (h : moveStep m s = .next t) : t.fmt = s.fmt := by
  cases m with
  | core =>
    obtain ⟨evs, hr, -⟩ := coreStep_records h
    exact hr.fmt
  | write reg word =>
    rcases hostWrite_cases h with rfl | ⟨hb', -⟩ | rfl
    · rfl
    · exact nomatch hb.symm.trans hb'
    · rfl
  | read reg => cases h; rfl
  | reset => exact absurd rfl hm
  | sink content => cases (moveStep_sink_of_busy hb content).symm.trans h

/-- Settles O38: the host's write is taken by whether the core is busy, and every move of a busy step
but reset keeps `FMT` (R116). -/
theorem formatIsFixedWhileBusy : Obligations.FormatIsFixedWhileBusy := by
  refine ⟨fun s w => ⟨fun hp => ?_, fun hp => ?_⟩, fun s t hb hr h => ?_⟩
  · exact congrArg Host.Outcome.next (if_neg (by simp [(Phase.not_busy_iff _).2 hp]))
  · exact congrArg Host.Outcome.next (if_pos ((Phase.busy_iff _).2 hp))
  · cases hm : s.env.moves with
    | nil =>
      obtain ⟨evs, hrec, -⟩ := coreStep_records ((step_noMoves hm).symm.trans h)
      exact hrec.fmt
    | cons m rest =>
      rw [step_move hm] at h
      exact moveStep_fmt_of_busy (s := s.setEnv { s.env with moves := rest }) hb
        (fun hreset => hr rest (hreset ▸ hm)) h

/-! A step runs the decoded instruction. -/

/-- A pixel's operations begin with the row of the code (R112). -/
theorem pixelOps_eq_cons (c : FmtCode) : ∃ rest, pixelOps c = decodeFmt c :: rest := by
  unfold pixelOps
  split <;> exact ⟨_, rfl⟩

/-- Settles O28, clause by clause: a step by its move, `RUN` by its first operation and what follows it,
`CHECK`, `FLUSH` and a write to `CTRL` by their one instruction (R110 to R113, R67). -/
theorem stepRunsTheDecodedInstruction : Obligations.StepRunsTheDecodedInstruction := by
  refine ⟨fun s m rest => step_move, fun s => step_noMoves, fun s => rfl,
    fun s i hm hp hi hn hr hc => ?_, fun i rest s t h => ⟨fun ht => ?_, fun ht => ?_⟩, fun s => rfl,
    fun s i hm hp hf hi => ?_, fun s t hm hp h => ?_, fun s w i rest hm hi => ?_⟩
  · cases hi
    obtain ⟨rest, hops⟩ := pixelOps_eq_cons s.fmt
    obtain ⟨w, hs, hw⟩ := runStep_pixel_left hn ⟨hr, hc⟩
    refine ⟨rest, w, hops, hw, ?_⟩
    rw [step_of_run hm hp, ← hops]
    exact hs
  · rw [runOps, h, unlessRaised_next_of_err _ ht]
  · rw [runOps, h, unlessRaised_next_of_ne _ ht]
  · cases hi
    simp only [step_of_check hm hp, checkStep, hf]
  · simp only [step_of_flush hm hp, flushStep, h]
    exact ⟨unlessRaised_next_of_err _, unlessRaised_next_of_ne _⟩
  · cases hi
    exact step_move hm

end Sys2Proof.Machine

namespace Sys2Proof.Machine

variable {s t : State} {f : Format} {new : List Byte} {acc : Byte} {pend : Bool} {rest : List Bool}

/-! Emitting to a sink that accepts (R95 to R97). -/

/-- The environment after the writes of `bs`, all accepted, with the answers `rest` left. -/
def Env.afterWrites (e : Env) (bs : List Byte) (rest : List Bool) : Env :=
  { e with
    writeAns := rest, snk := Mem.appendAll e.snk bs, events := e.events ++ acceptedWrites bs }

theorem exists_emits (f : Format) (g : Group) (acc : Byte) (pend : Bool) :
    ∃ new acc' pend', Emits f g acc pend new acc' pend' := by
  unfold Emits
  cases f.widthClass
  case w16 => exact ⟨_, _, _, rfl, rfl, rfl⟩
  case w8 => exact ⟨_, _, _, rfl, rfl, rfl⟩
  case w4 =>
    cases pend
    · exact ⟨_, _, _, .inr ⟨rfl, rfl, rfl, rfl⟩⟩
    · exact ⟨_, _, _, .inl ⟨rfl, rfl, rfl, rfl⟩⟩

/-- With an `ok` to come for each byte, an emitter writes its bytes. -/
theorem exec_emitter_accepted (hem : Emits f s.bg s.acc s.pend new acc pend)
    (ha : s.env.writeAns = List.replicate new.length true ++ rest) :
    exec f.widthClass.emitter s = .next { s with
      bcnt := s.bcnt + new.length, acc := acc, pend := pend, env := s.env.afterWrites new rest } := by
  unfold Emits at hem
  cases hc : f.widthClass <;> simp only [hc] at hem
  case w16 =>
    obtain ⟨rfl, rfl, rfl⟩ := hem
    refine (exec_emit16_of_accepted ha).trans ?_
    rw [put_accepted rfl]
    simp [Env.afterAccepted, Env.afterWrites, State.setEnv, State.countByte, acceptedWrites]
  case w8 =>
    obtain ⟨rfl, rfl, rfl⟩ := hem
    refine (exec_emit8 s).trans ?_
    rw [put_accepted ha]
    rfl
  case w4 =>
    rcases hem with ⟨hp, rfl, rfl, rfl⟩ | ⟨hp, rfl, rfl, rfl⟩
    · refine (exec_emit4_of_pend hp).trans ?_
      rw [put_accepted ha]
      rfl
    · refine (exec_emit4_of_not_pend hp).trans ?_
      simp only [List.length_nil, List.replicate_zero, List.nil_append] at ha
      simp [State.setHeld, Env.afterWrites, acceptedWrites, ← ha]

/-- A `RUN` step with a pixel left and an `ok` to come for each byte of it (R112). -/
theorem runStep_accepted {w : SampleWord} (hp : s.phase = .run) (hf : formatOf s.fmt = some f)
    (hn : s.idx ≠ s.pixelCount) (hin : s.row < s.env.image.height ∧ s.col < s.env.image.width)
    (hw : w = s.env.image.at (s.row * s.env.image.width + s.col))
    (hem : Emits f (enc f (Sample.ofWord w)) s.acc s.pend new acc pend)
    (ha : s.env.writeAns = List.replicate new.length true ++ rest) :
    ∃ sum int a1, runStep s = .next (State.advance { s with
      px := Sample.ofWord w, sum := sum, int := int, a1 := a1, bg := enc f (Sample.ofWord w),
      bcnt := s.bcnt + new.length, acc := acc, pend := pend,
      env := (s.env.log (.srcRead s.row s.col w)).afterWrites new rest }) := by
  obtain ⟨w', h, hw'⟩ := runStep_pixel_left hn hin
  obtain rfl : w' = w := hw'.trans hw.symm
  obtain ⟨sum, int, a1, he⟩ := exec_encoder f
    ((s.setEnv (s.env.log (.srcRead s.row s.col w'))).latchPx (Sample.ofWord w'))
  have hx := exec_emitter_accepted (s := { s with
    px := Sample.ofWord w', sum := sum, int := int, a1 := a1, bg := enc f (Sample.ofWord w'),
    env := s.env.log (.srcRead s.row s.col w') }) hem ha
  refine ⟨sum, int, a1, ?_⟩
  rw [h, pixelOps_of_formatOf hf, runOps, he, unlessRaised_next_of_ne _ (by simp [hp]), runOps]
  refine (congrArg (unlessRaised · _) hx).trans ?_
  rw [unlessRaised_next_of_ne _ (by simp [hp]), runOps_next]

/-- The bytes accepted after a sample is read and its bytes are written. -/
theorem written_of_afterWrites {r c : Nat} {w : SampleWord}
    (h : t.env = (s.env.log (.srcRead r c w)).afterWrites new rest) :
    t.written = s.written ++ new := by
  have hev : t.env.events = s.env.events ++ .srcRead r c w :: acceptedWrites new := by
    simp [h, Env.afterWrites, Env.log]
  rw [State.written_append hev]
  exact congrArg (s.written ++ ·) (acceptedWrites_bytes new)

theorem two_answers_split {n : Nat} (h : n ≤ 2) (rest : List Bool) :
    ∃ rest', true :: true :: rest = List.replicate n true ++ rest' := by
  match n, h with
  | 0, _ => exact ⟨_, rfl⟩
  | 1, _ => exact ⟨_, rfl⟩
  | 2, _ => exact ⟨_, rfl⟩

/-- Settles O29: with no pixel left only the phase moves; else the step is one of those an emitter allows,
and with a sink that accepts it is the emitter's bytes and the iterator's advance (R112, R99). -/
theorem runStepHandlesOnePixel : Obligations.RunStepHandlesOnePixel := by
  refine ⟨fun s hm hp hn => ?_, fun s f hm hp hf hn hr hc => ?_,
    fun s f rest hm hp hf hn hr hc ha => ?_⟩
  · rw [step_of_run hm hp]
    exact runStep_no_pixel_left hn
  · obtain ⟨w, px, sum, int, a1, hw, rfl, ⟨new, acc, pend, e, -, -, hs⟩ | ⟨pre, b, e, -, -, hs⟩⟩ :=
      runStep_cases hp hf hn hr hc
    · exact ⟨_, w, (step_of_run hm hp).trans hs, hw, by simp [Sample.ofWord],
        by simp [Sample.ofWord], by simp [Sample.ofWord], by simp [Sample.ofWord],
        .inl (by simpa using hp)⟩
    · exact ⟨_, w, (step_of_run hm hp).trans hs, hw, rfl, rfl, rfl, rfl,
        .inr ⟨rfl, rfl, rfl, rfl, rfl⟩⟩
  · obtain ⟨w, hw⟩ : ∃ w, w = s.env.image.at (s.row * s.env.image.width + s.col) := ⟨_, rfl⟩
    obtain ⟨new, acc, pend, hem⟩ := exists_emits f (enc f (Sample.ofWord w)) s.acc s.pend
    obtain ⟨rest', hsplit⟩ := two_answers_split hem.length_le rest
    obtain ⟨sum, int, a1, hs⟩ := runStep_accepted hp hf hn ⟨hr, hc⟩ hw hem (ha.trans hsplit)
    refine ⟨_, w, (step_of_run hm hp).trans hs, by simpa using hp, hw, by simp,
      by simp [Sample.ofWord], by simp [Sample.ofWord], by simp [Sample.ofWord],
      by simp [Sample.ofWord], by simp, by simp, fun hcol => ?_, fun hcol => ?_, by simp, by simp,
      by simp, by simp, ?_⟩
    · simp [State.advance_row, State.advance_col, hcol]
    · simp [State.advance_row, State.advance_col, hcol]
    · rw [written_of_afterWrites (State.advance_env _)]
      simp only [State.advance_bg, State.advance_bcnt, State.advance_acc, State.advance_pend]
      unfold Emits at hem
      refine ⟨fun hk => ?_, fun hk => ?_, fun hk hpd => ?_, fun hk hpd => ?_⟩ <;>
        simp only [hk] at hem
      · obtain ⟨rfl, rfl, rfl⟩ := hem
        exact ⟨rfl, rfl, rfl, rfl⟩
      · obtain ⟨rfl, rfl, rfl⟩ := hem
        exact ⟨rfl, rfl, rfl, rfl⟩
      · rcases hem with ⟨hpd', -⟩ | ⟨-, rfl, rfl, rfl⟩
        · exact nomatch hpd.symm.trans hpd'
        · exact ⟨List.append_nil _, rfl, groupNibble_shiftLeft _, rfl⟩
      · rcases hem with ⟨-, rfl, rfl, rfl⟩ | ⟨hpd', -⟩
        · exact ⟨by rw [groupNibble_eq_append], rfl, rfl, rfl⟩
        · exact nomatch hpd.symm.trans hpd'

end Sys2Proof.Machine

namespace Sys2Proof.Machine

variable {s t : State} {f : Format}

/-! How many steps of the core a conversion has left (R120, R153). -/

/-- A bound on the steps left once the ports are open: one for each pixel left, one that finds none, one
each for `FLUSH` and `CLOSE`. -/
def State.stepsLeft (s : State) : Nat :=
  match s.phase with
  | .run => s.pixelCount - s.idx + 3
  | .flush => 2
  | .close => 1
  | _ => 0

theorem State.stepsLeft_of_run (hp : s.phase = .run) :
    s.stepsLeft = s.pixelCount - s.idx + 3 := by
  rw [State.stepsLeft, hp]

theorem State.stepsLeft_of_flush (hp : s.phase = .flush) : s.stepsLeft = 2 := by
  rw [State.stepsLeft, hp]

theorem State.stepsLeft_of_close (hp : s.phase = .close) : s.stepsLeft = 1 := by
  rw [State.stepsLeft, hp]

theorem State.stepsLeft_of_ended (hp : s.phase = .done ∨ s.phase = .err) : s.stepsLeft = 0 := by
  rcases hp with hp | hp <;> rw [State.stepsLeft, hp]

/-- `RUN` handles a pixel more, or leaves for `FLUSH` or `ERR` (R112). -/
theorem runStep_stepsLeft_lt (hi : ConvInv s) (hp : s.phase = .run) (h : runStep s = .next t) :
    t.stepsLeft < s.stepsLeft := by
  obtain ⟨hit, f, hf, -⟩ := hi.running hp
  rw [State.stepsLeft_of_run hp]
  by_cases hn : s.idx = s.pixelCount
  · cases (runStep_no_pixel_left hn).symm.trans h
    rw [State.stepsLeft_of_flush rfl]
    omega
  · obtain ⟨hr, hc⟩ := hit.inside hn
    have hle := hit.idx_le_pixelCount
    obtain ⟨w, px, sum, int, a1, -, -, ⟨_, _, _, e, -, -, hs⟩ | ⟨_, _, e, -, -, hs⟩⟩ :=
      runStep_cases hp hf hn (hit.height_eq ▸ hr) (hit.width_eq ▸ hc) <;> cases hs.symm.trans h
    · rw [State.stepsLeft_of_run (by simpa using hp)]
      simp only [State.pixelCount_eq, State.advance_idx, State.advance_width,
        State.advance_height] at hle hn ⊢
      omega
    · rw [State.stepsLeft_of_ended (.inr rfl)]
      omega

/-- Once the ports are open every step of the core keeps the dimensions and comes nearer to the end. -/
theorem step_stepsLeft_lt (hi : ConvInv s) (hm : s.env.moves = []) (hb : s.phase.busy = true)
    (hc : s.phase ≠ .check) :
    ∃ t, step s = .next t ∧ t.env.moves = [] ∧ SameImage s t ∧ t.phase ≠ .idle ∧
      t.phase ≠ .check ∧ t.stepsLeft < s.stepsLeft := by
  obtain ⟨t, ht⟩ := coreStep_next_of_convInv hi
  have hstep : step s = .next t := (step_noMoves hm).trans ht
  obtain ⟨evs, hrec, -⟩ := coreStep_records ht
  have himg : SameImage s t :=
    (step_dims (by simp [hm]) hstep).resolve_right fun h => hc h.1
  refine ⟨t, hstep, hrec.moves.trans hm, himg, ?_⟩
  rcases (Phase.busy_iff _).1 hb with hp | hp | hp | hp <;> simp only [coreStep, hp] at ht
  · exact absurd hp hc
  · obtain ⟨-, -, -, hph⟩ := runStep_records hp ht
    have hlt := runStep_stepsLeft_lt hi hp ht
    rcases hph with hph | hph | hph <;> exact ⟨by simp [hph], by simp [hph], hlt⟩
  · obtain ⟨-, -, -, hph⟩ := flushStep_records hp ht
    rw [State.stepsLeft_of_flush hp]
    rcases hph with hph | hph
    · exact ⟨by simp [hph], by simp [hph], by rw [State.stepsLeft_of_close hph]; omega⟩
    · exact ⟨by simp [hph], by simp [hph], by rw [State.stepsLeft_of_ended (.inr hph)]; omega⟩
  · obtain ⟨-, -, hph⟩ := closeStep_records ht
    rw [State.stepsLeft_of_close hp, State.stepsLeft_of_ended hph]
    rcases hph with hph | hph <;> exact ⟨by simp [hph], by simp [hph], by omega⟩

/-- Once the ports are open the core rests after at most `stepsLeft` steps, the dimensions kept. -/
theorem run_ends_within_stepsLeft {s : State} (hi : ConvInv s) (hm : s.env.moves = [])
    (hidle : s.phase ≠ .idle) (hc : s.phase ≠ .check) :
    ∃ k t, k ≤ s.stepsLeft ∧ Host.Core.run Sys2Proof.core k s = .next t ∧
      (t.phase = .done ∨ t.phase = .err) ∧ SameImage s t := by
  cases hb : s.phase.busy with
  | false =>
    have hend := ((Phase.not_busy_iff _).1 hb).resolve_left hidle
    exact ⟨0, s, Nat.zero_le _, rfl, hend, .refl s⟩
  | true =>
    obtain ⟨t, hs, hmt, himg, hidle', hc', hlt⟩ := step_stepsLeft_lt hi hm hb hc
    obtain ⟨k, u, hk, hrun, hend, himg'⟩ :=
      run_ends_within_stepsLeft (stepKeepsConversionInvariant s t hi hs) hmt hidle' hc'
    exact ⟨k + 1, u, by omega, (run_of_step k hs).trans hrun, hend, himg.trans himg'⟩
termination_by s.stepsLeft

/-- Settles O55: `CHECK` ends the conversion or opens the ports, and from then on each step comes nearer
to the end; the dimensions stay those that `CHECK` latched (R120, R153). -/
theorem conversionEndsWithinPixelCountPlusFour :
    Obligations.ConversionEndsWithinPixelCountPlusFour := by
  intro s hi hm hp
  obtain ⟨t, ht⟩ := checkStep_next s
  have hs : step s = .next t := (step_of_check hm hp).trans ht
  obtain ⟨evs, hrec, -, hph⟩ := checkStep_records ht
  rcases hph with hph | hph
  · obtain ⟨k, u, hk, hrun, hend, himg⟩ :=
      run_ends_within_stepsLeft (stepKeepsConversionInvariant s t hi hs)
        (hrec.moves.trans hm) (by simp [hph]) (by simp [hph])
    refine ⟨k + 1, u, ?_, (run_of_step k hs).trans hrun, hend⟩
    rw [State.stepsLeft_of_run hph, State.pixelCount_eq] at hk
    rw [himg.width, himg.height]
    omega
  · exact ⟨1, t, Nat.le_add_left _ _, run_of_step 0 hs, .inr hph⟩

end Sys2Proof.Machine

namespace Sys2Proof.Machine

variable {s t : State} {f : Format} {img : Image} {wr cl : List Bool} {new : List Byte} {n : Nat}

/-! A conversion whose answers to come are all favourable (R121, R122). -/

/-- Some state of a run with the ports open: the image is `img`, and the answers to come are an `ok` for
each byte that is still to be written and for the close. -/
structure Favourable (f : Format) (img : Image) (wr cl : List Bool) (s : State) : Prop where
  conv : ConvInv s
  hist : HistoryInv s
  moves : s.env.moves = []
  fmt : formatOf s.fmt = some f
  image : s.env.image = img
  writeAns : s.env.writeAns =
    List.replicate (streamLength f img.count - s.written.length) true ++ wr
  closeAns : s.env.closeAns = true :: cl

/-- The stream of the image is written, whole, with the history of R122. -/
structure Completed (f : Format) (img : Image) (t : State) : Prop where
  phase : t.phase = .done
  errcode : t.errcode = 0
  events : t.env.events = fullHistory f img
  written : t.written = pack f img.pixels
  bcnt : t.bcnt = streamLength f img.count
  width : t.width = img.width
  height : t.height = img.height
  idx : t.idx = img.count

theorem Favourable.pixelCount_eq (h : Favourable f img wr cl s) (hp : s.phase = .run) :
    s.pixelCount = img.count := by
  rw [(h.conv.running hp).1.pixelCount_eq_count, h.image]

/-- As long as no more bytes are wanted than the stream has, the answers to them are at hand. -/
theorem Favourable.writeAns_split (h : Favourable f img wr cl s)
    (hn : s.written.length + n ≤ streamLength f img.count) :
    s.env.writeAns = List.replicate n true ++
      (List.replicate (streamLength f img.count - (s.written.length + n)) true ++ wr) := by
  rw [h.writeAns, ← List.append_assoc, List.replicate_append_replicate]
  congr 3
  omega

/-- A step that writes `new` and leaves the answers to the rest goes on favourably. -/
theorem Favourable.of_step {evs : List Event} (h : Favourable f img wr cl s)
    (hs : step s = .next t) (hr : Records s t evs) (hi : t.env.image = s.env.image)
    (hw : t.written = s.written ++ new) (hc : t.env.closeAns = s.env.closeAns)
    (ha : t.env.writeAns =
      List.replicate (streamLength f img.count - (s.written.length + new.length)) true ++ wr) :
    Favourable f img wr cl t where
  conv := stepKeepsConversionInvariant s t h.conv hs
  hist := stepKeepsHistoryInvariant s t h.conv h.hist hs
  moves := hr.moves.trans h.moves
  fmt := hr.fmt ▸ h.fmt
  image := hi.trans h.image
  writeAns := by rw [hw, List.length_append, ha]
  closeAns := hc.trans h.closeAns

theorem pack_pixels_length (f : Format) (img : Image) :
    (pack f img.pixels).length = streamLength f img.count := by
  rw [packLengthIsExact, Image.pixels_length]

/-- The bytes of the next pixel belong to the stream (R100, R132). -/
theorem PackerInv.written_add_le_of_emits {acc : Byte} {pend : Bool} (h : PackerInv f s)
    (hlt : s.idx < s.env.image.count)
    (hem : Emits f (enc f (Sample.ofWord (s.env.image.at s.idx))) s.acc s.pend new acc pend) :
    s.written.length + new.length ≤ streamLength f s.env.image.count := by
  rw [h.acc_eq, h.pend_eq] at hem
  have hle := (packing_take_isPrefix_pack f s.env.image.pixels (s.idx + 1)).length_le
  rw [Image.take_pixels_succ hlt, packing_of_emits hem, pack_pixels_length] at hle
  simpa [← h.out_eq] using hle

/-- A nibble held at the end is one byte more of the stream (R98, R100). -/
theorem PackerInv.written_add_one_le_of_pend (h : PackerInv f s) (hn : s.idx = s.env.image.count)
    (hp : s.pend = true) : s.written.length + 1 ≤ streamLength f s.env.image.count := by
  have hpend := (h.held_of_all_handled hn).2
  have hout := h.out_eq
  rw [hn, ← Image.pixels_length, List.take_length] at hout
  rw [← pack_pixels_length, pack_of_pend (hpend.symm.trans hp), ← hout, List.length_append,
    List.length_singleton]

/-- `RUN` writes the next pixel's bytes and moves on (R112). -/
theorem Favourable.run_pixel (h : Favourable f img wr cl s) (hp : s.phase = .run)
    (hn : s.idx ≠ s.pixelCount) :
    ∃ t, step s = .next t ∧ Favourable f img wr cl t ∧ t.phase = .run ∧ t.idx = s.idx + 1 := by
  obtain ⟨hit, f', hf', hpk⟩ := h.conv.running hp
  obtain rfl : f' = f := Option.some.inj (hf'.symm.trans h.fmt)
  obtain ⟨hr, hc⟩ := hit.inside hn
  have hlt : s.idx < s.env.image.count :=
    hit.pixelCount_eq_count ▸ lt_of_le_of_ne hit.idx_le_pixelCount hn
  have hw : s.env.image.at s.idx = s.env.image.at (s.row * s.env.image.width + s.col) := by
    rw [← hit.width_eq, ← hit.flat]
  obtain ⟨new, acc, pend, hem⟩ :=
    exists_emits f' (enc f' (Sample.ofWord (s.env.image.at s.idx))) s.acc s.pend
  have hsplit := h.writeAns_split (h.image ▸ hpk.written_add_le_of_emits hlt hem)
  obtain ⟨sum, int, a1, ht⟩ :=
    runStep_accepted hp hf' hn ⟨hit.height_eq ▸ hr, hit.width_eq ▸ hc⟩ hw hem hsplit
  have hs := (step_of_run h.moves hp).trans ht
  obtain ⟨evs, hrec, -⟩ := runStep_records hp ht
  refine ⟨_, hs, h.of_step hs hrec ?_ (written_of_afterWrites (State.advance_env _)) ?_ ?_,
    by simpa using hp, by simp⟩ <;> rw [State.advance_env] <;> rfl

/-- `RUN` with no pixel left moves on (R112). -/
theorem Favourable.run_end (h : Favourable f img wr cl s) (hp : s.phase = .run)
    (hn : s.idx = s.pixelCount) :
    ∃ t, step s = .next t ∧ Favourable f img wr cl t ∧ t.phase = .flush := by
  have hs := (step_of_run h.moves hp).trans (runStep_no_pixel_left hn)
  exact ⟨_, hs, h.of_step (new := []) hs (.of_env_eq rfl rfl) rfl (List.append_nil _).symm rfl
    h.writeAns, rfl⟩

/-- `FLUSH` writes a held nibble, whose `ok` is the last one, and moves on (R113). -/
theorem Favourable.flush (h : Favourable f img wr cl s) (hp : s.phase = .flush) :
    ∃ t, step s = .next t ∧ Favourable f img wr cl t ∧ t.phase = .close := by
  obtain ⟨hnone, haccepted, -⟩ := flushStepThenCloses s
    (List.replicate (streamLength f img.count - (s.written.length + 1)) true ++ wr) h.moves hp
  cases hpd : s.pend with
  | false =>
    have hs := hnone hpd
    exact ⟨_, hs, h.of_step (new := []) hs (.of_env_eq rfl rfl) rfl (List.append_nil _).symm rfl
      h.writeAns, rfl⟩
  | true =>
    obtain ⟨-, hn, f', hf', hpk⟩ := h.conv.flushing hp
    obtain rfl : f' = f := Option.some.inj (hf'.symm.trans h.fmt)
    have hsplit := h.writeAns_split (h.image ▸ hpk.written_add_one_le_of_pend hn hpd)
    have hs := haccepted hpd hsplit
    exact ⟨_, hs, h.of_step hs ⟨rfl, rfl, rfl⟩ rfl
      (State.written_append (s := s) (evs := [.sinkWrite s.acc true]) rfl) rfl rfl, rfl⟩

/-- `CLOSE` completes the conversion (R114, R120). -/
theorem Favourable.close (h : Favourable f img wr cl s) (hp : s.phase = .close) :
    ∃ t, step s = .next t ∧ Completed f img t := by
  obtain ⟨hit, hidx, -, -, f', hf', hw⟩ := h.conv.closing hp
  obtain rfl : f' = f := Option.some.inj (hf'.symm.trans h.fmt)
  obtain ⟨f'', hf'', hist⟩ := h.hist.closing hp
  obtain rfl : f'' = f' := Option.some.inj (hf''.symm.trans h.fmt)
  obtain rfl := h.image
  have hcount : s.bcnt = streamLength f'' s.env.image.count := by
    rw [h.conv.count, hw, pack_pixels_length]
  refine ⟨_, (step_of_close h.moves hp).trans (closeStep_accepted h.closeAns), rfl,
    h.conv.errcode_eq_zero (by simp [hp]), ?_, ?_, hcount, hit.width_eq, hit.height_eq, hidx⟩
  · exact congrArg (· ++ [.sinkClose true]) hist
  · exact (State.written_append (s := s) (evs := [.sinkClose true]) rfl).trans
      ((List.append_nil _).trans hw)

/-- From `RUN` with `n` pixels left, `n + 3` steps complete the conversion (R120). -/
theorem Favourable.completes (n : Nat) (h : Favourable f img wr cl s) (hp : s.phase = .run)
    (hn : s.idx + n = img.count) :
    ∃ t, Host.Core.run Sys2Proof.core (n + 3) s = .next t ∧ Completed f img t := by
  induction n generalizing s with
  | zero =>
    obtain ⟨t, hs, ht, hpt⟩ := h.run_end hp (hn.trans (h.pixelCount_eq hp).symm)
    obtain ⟨u, hs', hu, hpu⟩ := ht.flush hpt
    obtain ⟨v, hs'', hv⟩ := hu.close hpu
    exact ⟨v, (run_of_step 2 hs).trans ((run_of_step 1 hs').trans (run_of_step 0 hs'')), hv⟩
  | succ n ih =>
    have hleft : s.idx ≠ s.pixelCount := by
      rw [h.pixelCount_eq hp]
      omega
    obtain ⟨t, hs, ht, hpt, hidx⟩ := h.run_pixel hp hleft
    obtain ⟨u, hrun, hu⟩ := ih ht hpt (by omega)
    exact ⟨u, (run_of_step (n + 3) hs).trans hrun, hu⟩

/-- Settles O54: `CHECK` opens both ports with nothing written yet, and from there on every answer is
favourable (R120, R122). -/
theorem favourableConversionCompletes : Obligations.FavourableConversionCompletes := by
  intro s f img src rdy wr cl hi hh hm hp hf hsrc hrdy hwr hcl
  have hc : s.fmt.toNat ≤ 4 :=
    Nat.le_of_not_lt fun h => nomatch hf.symm.trans ((formatOf_eq_none_iff s.fmt).2 h)
  obtain ⟨-, -, -, hcheck⟩ := checkStepOpensSourceThenSink s img src rdy hm hp
  have hs := hcheck hc hsrc hrdy
  obtain ⟨-, -, hidx, -, -, hw⟩ := hi.fresh hp
  have hnone {t : State} (ht : t.env.events =
      s.env.events ++ [.srcOpen (some (img.width, img.height)), .sinkReady true]) :
      t.written = [] := by
    rw [State.written_append ht, hw]
    rfl
  have hfav : Favourable f img wr cl _ :=
    { conv := stepKeepsConversionInvariant s _ hi hs
      hist := stepKeepsHistoryInvariant s _ hi hh hs
      moves := hm
      fmt := hf
      image := rfl
      writeAns := by rw [hnone rfl]; exact hwr
      closeAns := hcl }
  obtain ⟨t, hrun, ht⟩ := hfav.completes img.count rfl (by simp [hidx])
  exact ⟨t, (run_of_step (img.count + 3) hs).trans hrun, ht.phase, ht.errcode, ht.events, ht.written,
    ht.bcnt, ht.width, ht.height, ht.idx⟩

end Sys2Proof.Machine

namespace Sys2Proof.Machine

variable {s t : State} {f : Format}

/-! Raising an error (R129, R131). -/

/-- Settles O34: `raise` is its two writes, and in `ERR` the core has no step (R115). -/
theorem raiseWritesCodeAndPhase : Obligations.RaiseWritesCodeAndPhase :=
  fun _ => ⟨rfl, rfl, rfl, fun _ hm =>
    (step_noMoves (s := State.raise _ _) hm).trans (coreStep_of_not_busy rfl)⟩

/-- Each error has a code of its own (R129). -/
theorem errorCode_injective : Function.Injective errorCode := by
  intro k l
  cases k <;> cases l <;> decide

/-- From `s` to `t` an error of kind `k` was raised, every register of R131 keeping its value but for
what the step wrote before: the first byte of a 16-bit group, the dimensions latched in `CHECK`. What `raise`
alone keeps stands by default. -/
structure Raised (k : ErrorKind) (s t : State) : Prop where
  errcode : t.errcode = errorCode k := by rfl
  fmt : t.fmt = s.fmt := by rfl
  row : t.row = s.row := by rfl
  col : t.col = s.col := by rfl
  idx : t.idx = s.idx := by rfl
  acc : t.acc = s.acc := by rfl
  pend : t.pend = s.pend := by rfl
  bcnt : t.bcnt = s.bcnt ∨ (s.phase = .run ∧ s.fmt = 0 ∧ t.bcnt = s.bcnt + 1) := by exact .inl rfl
  dims : s.phase ≠ .check → t.width = s.width ∧ t.height = s.height := by exact fun _ => ⟨rfl, rfl⟩
  format : k = .invalidFormat ↔ formatOf s.fmt = none ∧ (s.phase = .check ∨ s.phase = .run)
  source : k = .sourceUnavailable → s.phase = .check

/-- `CHECK` raises `InvalidFormat` for a reserved code, and another error for a format (R111). -/
theorem checkStep_raised (hp : s.phase = .check) (h : checkStep s = .next t) (ht : t.phase = .err) :
    ∃ k, Raised k s t := by
  rcases checkStep_cases s with ⟨hf, hs⟩ | ⟨f, hf, e, -, hs⟩ | ⟨f, hf, e, -, -, hs⟩ |
    ⟨f, hf, e, -, -, hs⟩ <;> cases hs.symm.trans h
  · exact ⟨.invalidFormat, { format := iff_of_true rfl ⟨hf, .inl hp⟩, source := nofun }⟩
  · exact ⟨.sourceUnavailable, { format := by simp [hf], source := fun _ => hp }⟩
  · exact ⟨.sinkFailure, { dims := fun hc => absurd hp hc, format := by simp [hf], source := nofun }⟩
  · cases ht

/-- Before an emitter stops it has written at most the first byte of a 16-bit group (R95 to R97). -/
theorem EmitStops.length_eq_zero_or {g : Group} {acc b : Byte} {pend : Bool} {pre : List Byte}
    (h : EmitStops f g acc pend pre b) : pre.length = 0 ∨ (f = .rgba5551 ∧ pre.length = 1) := by
  unfold EmitStops at h
  cases f with
  | rgba5551 => rcases h with ⟨rfl, -⟩ | ⟨rfl, -⟩ <;> simp
  | i8 => obtain ⟨rfl, -⟩ := h; exact .inl rfl
  | ia8 => obtain ⟨rfl, -⟩ := h; exact .inl rfl
  | i4 => obtain ⟨-, rfl, -⟩ := h; exact .inl rfl
  | ia4 => obtain ⟨-, rfl, -⟩ := h; exact .inl rfl

/-- `RUN` raises `SinkFailure` from inside the emitter, or `InvalidFormat` in a state no run reaches
(R112; log entry 14). -/
theorem runStep_raised (hp : s.phase = .run) (h : runStep s = .next t) (ht : t.phase = .err) :
    ∃ k, Raised k s t := by
  by_cases hn : s.idx = s.pixelCount
  · cases (runStep_no_pixel_left hn).symm.trans h
    cases ht
  by_cases hin : s.row < s.env.image.height ∧ s.col < s.env.image.width
  case neg => cases (runStep_outside hn hin).symm.trans h
  cases hf : formatOf s.fmt with
  | none =>
    obtain ⟨w, hs, -⟩ := runStep_pixel_left hn hin
    rw [runOps_pixelOps_reserved hf] at hs
    cases hs.symm.trans h
    exact ⟨.invalidFormat, { format := iff_of_true rfl ⟨hf, .inr hp⟩, source := nofun }⟩
  | some f =>
    obtain ⟨w, px, sum, int, a1, -, -, ⟨_, _, _, e, -, -, hs⟩ | ⟨pre, b, e, hst, -, hs⟩⟩ :=
      runStep_cases hp hf hn hin.1 hin.2 <;> cases hs.symm.trans h
    · simp [hp] at ht
    · have hbcnt : s.bcnt + pre.length = s.bcnt ∨
          (s.phase = .run ∧ s.fmt = 0 ∧ s.bcnt + pre.length = s.bcnt + 1) := by
        rcases hst.length_eq_zero_or with hlen | ⟨rfl, hlen⟩ <;> rw [hlen]
        · exact .inl rfl
        · exact .inr ⟨hp, code_of_formatOf hf, rfl⟩
      exact ⟨.sinkFailure, { bcnt := hbcnt, format := by simp [hf], source := nofun }⟩

/-- `FLUSH` raises `SinkFailure` when the held nibble's byte is refused, and goes on holding it (R113). -/
theorem flushStep_raised (hp : s.phase = .flush) (h : flushStep s = .next t) (ht : t.phase = .err) :
    ∃ k, Raised k s t := by
  rcases flushStep_cases hp with ⟨-, hs⟩ | ⟨-, e, -, hs⟩ | ⟨-, e, -, hs⟩ <;> cases hs.symm.trans h
  · cases ht
  · cases ht
  · exact ⟨.sinkFailure, { format := by simp [hp], source := nofun }⟩

/-- `CLOSE` raises `SinkFailure` when the sink refuses to close (R114). -/
theorem closeStep_raised (hp : s.phase = .close) (h : closeStep s = .next t) (ht : t.phase = .err) :
    ∃ k, Raised k s t := by
  rcases closeStep_cases s with ⟨e, -, hs⟩ | ⟨e, -, hs⟩ <;> cases hs.symm.trans h
  · cases ht
  · exact ⟨.sinkFailure, { format := by simp [hp], source := nofun }⟩

theorem coreStep_raised (hs : s.phase ≠ .err) (h : coreStep s = .next t) (ht : t.phase = .err) :
    ∃ k, Raised k s t := by
  cases hp : s.phase <;> simp only [coreStep, hp] at h
  case check => exact checkStep_raised hp h ht
  case run => exact runStep_raised hp h ht
  case flush => exact flushStep_raised hp h ht
  case close => exact closeStep_raised hp h ht
  all_goals cases h; exact absurd ht hs

/-- Settles O33, by the phase whose step raises: what it wrote before `raise` is all that changed
(R131). -/
theorem raisingKeepsTheRegisters : Obligations.RaisingKeepsTheRegisters := by
  intro s t hm hs h ht
  obtain ⟨k, hr⟩ := coreStep_raised hs ((step_noMoves hm).symm.trans h) ht
  refine ⟨hr.fmt, hr.row, hr.col, hr.idx, hr.acc, hr.pend, hr.bcnt, hr.dims, ?_, fun hc => ?_, ?_⟩
  · rw [hr.errcode, ← formatOf_eq_none_iff, ← hr.format]
    exact errorCode_injective.eq_iff (b := .invalidFormat)
  · exact hr.source (errorCode_injective (hr.errcode.symm.trans hc))
  · exact hr.errcode ▸ errorCode_ne_zero k

end Sys2Proof.Machine

namespace Sys2Proof.Machine

variable {s t : State} {f : Format} {img : Image}

/-! A conversion that the sink stops (R132). -/

/-- The sink's refusal ended a conversion to the format `f`: the bytes accepted and the requests made are
a first part of that format's (R120, R122). -/
structure SinkStopped (f : Format) (t : State) : Prop where
  errcode : t.errcode = errorCode .sinkFailure
  written : t.written <+: pack f t.env.image.pixels
  history : ∃ h e, t.env.events = h ++ [e] ∧ e.sinkFailed = true ∧
    h ++ [e.accepted] <+: fullHistory f t.env.image

/-- Had the refused byte been accepted, the requests of the pixel at `i` would go on being those of the
favourable history (R122). -/
theorem EmitStops.history_isPrefix {i : Nat} {b : Byte} {pre : List Byte} (hlt : i < img.count)
    (hst : EmitStops f (enc f (Sample.ofWord (img.at i))) (packing f (img.pixels.take i)).acc
      (packing f (img.pixels.take i)).pend pre b) :
    historyUpTo f img i ++ .srcRead (i / img.width) (i % img.width) (img.at i) ::
      acceptedWrites (pre ++ [b]) <+: fullHistory f img := by
  obtain ⟨new, acc, pend, hem, hpre⟩ := hst.isPrefix_emits
  refine List.IsPrefix.trans ?_ (historyUpTo_isPrefix_fullHistory (Nat.succ_le_of_lt hlt))
  rw [historyUpTo_succ, pixelEvents_of_emits hlt hem]
  simpa [acceptedWrites] using hpre.map fun b => Event.sinkWrite b true

/-- `RUN` stops inside a pixel, the pixels before it whole (R112, R132). -/
theorem runStep_sinkStopped (hi : ConvInv s) (hh : HistoryInv s) (hp : s.phase = .run)
    (h : runStep s = .next t) (ht : t.phase = .err) :
    ∃ f, formatOf s.fmt = some f ∧ SinkStopped f t := by
  obtain ⟨hit, f, hf, hpk⟩ := hi.running hp
  obtain ⟨f', hf', hist⟩ := hh.running hp
  obtain rfl : f' = f := Option.some.inj (hf'.symm.trans hf)
  by_cases hn : s.idx = s.pixelCount
  · cases (runStep_no_pixel_left hn).symm.trans h
    cases ht
  obtain ⟨hr, hc⟩ := hit.inside hn
  obtain ⟨hrow, hcol⟩ := hit.row_col_eq hn
  have hlt : s.idx < s.env.image.count :=
    hit.pixelCount_eq_count ▸ lt_of_le_of_ne hit.idx_le_pixelCount hn
  obtain ⟨w, px, sum, int, a1, rfl, rfl, hs⟩ :=
    runStep_cases hp hf hn (hit.height_eq ▸ hr) (hit.width_eq ▸ hc)
  rw [← hit.width_eq, ← hit.flat] at hs
  rcases hs with ⟨new, acc, pend, e, -, -, hs⟩ | ⟨pre, b, e, hst, hev, hs⟩ <;>
    cases hs.symm.trans h
  · simp [hp] at ht
  · have hwritten {u : State} (hu : u.env = e) : u.written = s.written ++ pre :=
      hev.written (by simp [List.filterMap_cons, Event.acceptedByte]) hu
    refine ⟨f', hf, rfl, ?_, s.env.events ++ .srcRead s.row s.col (s.env.image.at s.idx) ::
      acceptedWrites pre, .sinkWrite b false, by simp [hev.events], rfl, ?_⟩
    · rw [hwritten rfl, hev.image]
      exact hpk.isPrefix_of_emitStops hlt hst
    · rw [hpk.acc_eq, hpk.pend_eq] at hst
      have hpre := hst.history_isPrefix hlt
      rw [← hist, ← hit.width_eq, hrow, hcol] at hpre
      simpa [hev.image, acceptedWrites, Event.accepted] using hpre

/-- `FLUSH` stops at the stream's last byte (R113, R132). -/
theorem flushStep_sinkStopped (hi : ConvInv s) (hh : HistoryInv s) (hp : s.phase = .flush)
    (h : flushStep s = .next t) (ht : t.phase = .err) :
    ∃ f, formatOf s.fmt = some f ∧ SinkStopped f t := by
  obtain ⟨-, hn, f, hf, hpk⟩ := hi.flushing hp
  obtain ⟨f', hf', hist⟩ := hh.flushing hp
  obtain rfl : f' = f := Option.some.inj (hf'.symm.trans hf)
  obtain ⟨hacc, hpend⟩ := hpk.held_of_all_handled hn
  rcases flushStep_cases hp with ⟨-, hs⟩ | ⟨-, e, -, hs⟩ | ⟨hpd, e, hev, hs⟩ <;>
    cases hs.symm.trans h
  · cases ht
  · cases ht
  · have hwritten {u : State} (hu : u.env = e) : u.written = s.written :=
      hev.written_same rfl hu
    refine ⟨f', hf, rfl, ?_, _, _, hev.events, rfl, ?_⟩
    · rw [hwritten rfl, hev.image, hpk.out_eq]
      exact packing_take_isPrefix_pack _ _ _
    · rw [hev.image, hist, fullHistory, flushEvents_of_pend (hpend.symm.trans hpd), hacc]
      exact List.prefix_append _ _

/-- `CLOSE` stops at the last request, the stream whole (R114, R132). -/
theorem closeStep_sinkStopped (hi : ConvInv s) (hh : HistoryInv s) (hp : s.phase = .close)
    (h : closeStep s = .next t) (ht : t.phase = .err) :
    ∃ f, formatOf s.fmt = some f ∧ SinkStopped f t := by
  obtain ⟨-, -, -, -, f, hf, hw⟩ := hi.closing hp
  obtain ⟨f', hf', hist⟩ := hh.closing hp
  obtain rfl : f' = f := Option.some.inj (hf'.symm.trans hf)
  rcases closeStep_cases s with ⟨e, -, hs⟩ | ⟨e, hev, hs⟩ <;> cases hs.symm.trans h
  · cases ht
  · have hwritten {u : State} (hu : u.env = e) : u.written = s.written :=
      hev.written_same rfl hu
    refine ⟨f', hf, rfl, ?_, _, _, hev.events, rfl, ?_⟩
    · rw [hwritten rfl, hev.image, hw]
    · rw [hev.image, hist]
      exact List.prefix_rfl

/-- Once the ports are open only the sink ends a conversion in `ERR` (R120, R130). -/
theorem coreStep_sinkStopped (hi : ConvInv s) (hh : HistoryInv s) (hb : s.phase.busy = true)
    (hc : s.phase ≠ .check) (h : coreStep s = .next t) (ht : t.phase = .err) :
    ∃ f, formatOf s.fmt = some f ∧ SinkStopped f t := by
  rcases (Phase.busy_iff _).1 hb with hp | hp | hp | hp <;> simp only [coreStep, hp] at h
  · exact absurd hp hc
  · exact runStep_sinkStopped hi hh hp h ht
  · exact flushStep_sinkStopped hi hh hp h ht
  · exact closeStep_sinkStopped hi hh hp h ht

/-- `CHECK` writes nothing to the sink (R111). -/
theorem checkStep_written (h : checkStep s = .next t) : t.written = s.written := by
  have hsame {u : State} {evs : List Event} (hev : u.env.events = s.env.events ++ evs)
      (hno : evs.filterMap Event.acceptedByte = []) : u.written = s.written := by
    rw [State.written_append hev, hno, List.append_nil]
  rcases checkStep_cases s with ⟨-, hs⟩ | ⟨-, -, e, hev, hs⟩ | ⟨-, -, e, hev, -, hs⟩ |
    ⟨-, -, e, hev, -, hs⟩ <;> cases hs.symm.trans h
  · rfl
  · exact hsame hev.events rfl
  · exact hsame hev rfl
  · exact hsame hev rfl

/-- Of all moves only the core's own ends a conversion in `ERR` (R131). -/
theorem step_to_err_of_busy (hb : s.phase.busy = true) (h : step s = .next t) (ht : t.phase = .err) :
    ∃ ms, coreStep (s.setEnv { s.env with moves := ms }) = .next t := by
  obtain ⟨m, ms, hm⟩ := step_eq_moveStep s
  rw [hm] at h
  by_cases hcore : m = .core
  · subst hcore
    exact ⟨ms, h⟩
  · rcases (moveStep_host_cases hcore h).2 with hp | ⟨-, hp⟩ | ⟨hrest, -⟩
    · exact nomatch (congrArg Phase.busy (ht.symm.trans hp)).trans hb
    · exact nomatch ht.symm.trans hp
    · exact nomatch hb.symm.trans hrest

/-- Settles O56: only the core's step raises; in `CHECK` no byte was accepted, and from there on the sink
stopped the conversion to the format in `FMT`, at the `BCNT` bytes accepted (R132). -/
theorem abortedRunLeavesAFirstPartOfItsStream :
    Obligations.AbortedRunLeavesAFirstPartOfItsStream := by
  intro s t hi hh hb h ht
  have hcount := (stepKeepsConversionInvariant s t hi h).count
  obtain ⟨ms, hcore⟩ := step_to_err_of_busy hb h ht
  obtain ⟨evs, hrec, -⟩ := coreStep_records hcore
  refine ⟨hrec.fmt, hcount, fun hp => ?_, fun hc => ?_⟩
  · simp only [coreStep, State.setEnv_phase, hp] at hcore
    obtain ⟨-, -, -, -, -, hw⟩ := hi.fresh hp
    exact (checkStep_written hcore).trans hw
  · obtain ⟨f, hf, hstop⟩ :=
      coreStep_sinkStopped (hi.setMoves ms) (hh.setEnv rfl rfl) hb hc hcore ht
    refine ⟨hstop.errcode, f, hrec.fmt ▸ hf, ?_, hstop.history⟩
    rw [hcount]
    exact List.prefix_iff_eq_take.1 hstop.written

end Sys2Proof.Machine

namespace Sys2Proof.Machine

/-! Reset and a sink presented (R145 to R147). -/

theorem State.applyReset_env (s : State) : s.applyReset.env = { s.env with events := [] } := rfl

/-- Settles O37: the registers are those of `State.reset`, and of the environment only the record is
emptied (R145, R146). -/
theorem resetMoveAbandonsTheConversion : Obligations.ResetMoveAbandonsTheConversion :=
  fun s => ⟨s.applyReset, rfl, rfl, rfl, rfl, rfl, rfl, rfl, rfl, rfl, rfl, rfl, rfl,
    s.applyReset_env⟩

/-- Values listed from address 0 on end at their number, also when there are none. -/
theorem Mem.endAddr_ofValues_zero {n : Nat} (vs : List (BitVec n)) :
    Mem.endAddr (Mem.ofValues none 0 vs) = vs.length := by
  rw [Mem.endAddr_ofValues]
  split
  · rename_i hnil
    rw [hnil, List.length_nil]
  · exact Nat.zero_add _

/-- Values listed from address 0 on stand at their places in the list. -/
theorem Mem.read?_ofValues_zero {n : Nat} (vs : List (BitVec n)) (a : Nat) :
    Mem.read? (Mem.ofValues none 0 vs) a = vs[a]? := by
  rw [Mem.read?_ofValues, if_pos (Nat.zero_le a), Nat.sub_zero]

/-- Settles O57: the move is taken, as the core is not busy, and the storage it leaves lists the bytes
given from address 0 on (R147; log entries 4, 15). -/
theorem presentingASinkAtRest : Obligations.PresentingASinkAtRest := by
  intro s content rest hb hm
  have hstep : step s = .next ((s.setEnv { s.env with moves := rest }).presentSink content) := by
    rw [step_move hm, moveStep_sink_of_not_busy]
    exact hb
  exact ⟨_, hstep, rfl, Mem.ofValues_values content 0, Mem.endAddr_ofValues_zero content,
    Mem.read?_ofValues_zero content⟩

end Sys2Proof.Machine
